-- ==== Sys2Proof/Word.lean ====
section
/-! DEFINITION. The word type of the LS-8 (R10, R13) and the type of its program counter (R27). -/

namespace Sys2Proof

/-- A word: "an 8-bit unsigned value, the machine's native data unit" (R10, R13). -/
abbrev Word := BitVec 8

/-- A value of the program counter, and of the fault record's `fpc` and `info`: 9 bits, unsigned (R27, R36). -/
abbrev PcWord := BitVec 9

/-- A word used as an address: the branch targets are words, the program counter has one bit more (R27, R166). -/
def Word.toPc (w : Word) : PcWord := w.setWidth 9

end Sys2Proof
end

