-- ==== Sys2Proof/Config.lean ====
section
/-! DEFINITION. The implementation parameters of R7: the fixed ones as constants, the OPEN ones as a record that the
machine carries (`InitParams`) or as a constant without a body. -/

namespace Sys2Proof

/-- `MEM_SIZE` (R7, R50): memory has the addresses 0 to 254. -/
abbrev Config.memSize : Nat := 255

/-- `STACK_SIZE` (R7, R55): the stack has the indices 0 to 254. -/
abbrev Config.stackSize : Nat := 255

/-- `SP_INDEX` (R7, R21): the register that is the stack pointer. -/
abbrev Config.spIndex : Fin 8 := 7

/-- `SP_RESET` (R7, R42): the empty-stack sentinel. -/
abbrev Config.spReset : Word := 255

/-- `PC_RESET` (R7, R42): the reset vector. -/
abbrev Config.pcReset : PcWord := 0

/-- `LOAD_BASE` (R7, R71): the address of the first program word. -/
abbrev Config.loadBase : Nat := 0

/-- `CYCLES_PER_STEP` (R7, R250), OPEN: the clock cycles the instruction whose first word is given takes.
It has no value, and no definition of the model reads it, because "no rule of this spec depends on it". -/
opaque Config.cyclesPerStep : Word → Nat

/-- An array of words, held as its cells that are not 0, in one canonical form (`Store.wf`): memory (R50) and the
stack (R55) are two such arrays, of 255 cells each. A cell that is not listed holds 0. -/
abbrev Store := List Host.Cell

/-- The OPEN parameters of R7 that the state after reset depends on: "a model takes the parameter as an argument".
The machine carries them, fixed, in its state. -/
structure InitParams where
  /-- `INIT_GPR[0..6]` (D5) -/
  gpr : Vector Word 7
  /-- `INIT_FL` (D6) -/
  fl : Word
  /-- `INIT_STACK[0..254]` (D7) -/
  stack : Store
  deriving DecidableEq, Repr

/-- The parameters of the spec's test configuration (95_test_vectors.md section 1): all 0.
DESIGN CHOICE (unsafe, log 1): the spec gives no value. -/
def InitParams.zero : InitParams := { gpr := Vector.replicate 7 0, fl := 0, stack := [] }

end Sys2Proof
end

