-- ==== Sys2Proof/Machine/State.lean ====
section
/-! DEFINITION. The state of the block (10_state.md, 20_memory.md), the state after reset (R42, R240), and the reasons
a step could stop. -/

namespace Sys2Proof.Machine

/-- The run states (R34). -/
inductive RunState where
  /-- after reset, before the run starts -/
  | idle
  /-- the controller steps -/
  | running
  /-- terminal; entered by HLT only -/
  | halted
  /-- terminal; entered by a fatal fault -/
  | faulted
  deriving DecidableEq, Repr

/-- The fault causes (R201). Code 0, `none`, is the empty fault record. -/
inductive Cause where
  | memoryFault
  | stackOverflow
  | stackUnderflow
  | registerFault
  | unsupportedOperation
  | unsupportedControlOp
  deriving DecidableEq, Repr

/-- The fault record (R36). -/
structure FaultRecord where
  cause : Cause
  /-- `pc` of the faulting instruction -/
  fpc : PcWord
  /-- the instruction word, or none when its fetch faulted -/
  fir : Option Word
  /-- the cause's datum -/
  info : PcWord
  deriving DecidableEq, Repr

/-- One entry of the diagnostic stream (R38). -/
structure DiagEntry where
  pc : PcWord
  ir : Word
  deriving DecidableEq, Repr

/-- The input ports of R41, as the host drives them during a step (log 4). -/
structure Pins where
  rst : Bool
  start : Bool
  loadWe : Bool
  loadAddr : Word
  loadData : Word
  deriving DecidableEq, Repr

/-- No input port asserted. DESIGN CHOICE (log 4): the host drives the ports, and the spec gives them no reset value. -/
def Pins.quiet : Pins := { rst := false, start := false, loadWe := false, loadAddr := 0, loadData := 0 }

/-- The whole state of the block. -/
structure State where
  /-- the register file `x[0]` to `x[7]`; register 7 is the stack pointer (R20, R21) -/
  x : Vector Word 8
  /-- the program counter (R26, R27) -/
  pc : PcWord
  /-- the comparison flag (R30) -/
  fl : Word
  /-- the run state (R34) -/
  runState : RunState
  /-- the instruction register: the word fetched by the current step; not architectural between steps (R35, log 3) -/
  ir : Word
  /-- the fault record; `none` is the empty record (R36) -/
  fault : Option FaultRecord
  /-- the output stream, oldest first (R37) -/
  out : List Word
  /-- the diagnostic stream, oldest first (R38) -/
  diag : List DiagEntry
  /-- memory `M` (R50) -/
  mem : Store
  /-- the stack `S`, a separate array (R55, R60) -/
  stack : Store
  /-- the output port `load_err`: the last host write was refused (R41, R53) -/
  loadErr : Bool
  /-- the input ports (R41) -/
  pins : Pins
  /-- the OPEN parameters of this machine; no step changes them (R7, R42) -/
  init : InitParams
  deriving DecidableEq, Repr

/-- Why a step could stop instead of answering a next state. There is no reason: every fault of the spec is TAKEN, as
a next state in the run state `Faulted` (R209), and a block that is not `Running` stays as it is (R110). The type is
closed and empty, which is safe: the model never stops where the hardware goes on (log 7). -/
inductive Fault where
  deriving DecidableEq, Repr

/-- Why an instruction could have no meaning. -/
inductive Refusal where
  /-- Raised by the dispatcher alone, for an instruction of the opcode table that has no meaning yet; safe. No arm of
  this model raises it. -/
  | notModelled (mnemonic : String)
  deriving DecidableEq, Repr

/-- The register file after reset (R42): `INIT_GPR` in `x[0]` to `x[6]`, and the empty-stack sentinel in `x[7]`. -/
def resetRegs (p : InitParams) : Vector Word 8 := p.gpr.push Config.spReset

/-- The reset state (R42, R240) of a machine with the given parameters, while the host drives the given ports.
DESIGN CHOICE: `ir` is 0 (log 3) and `load_err` is deasserted (log 5); the spec gives neither. -/
def State.resetWith (p : InitParams) (pins : Pins) : State where
  x := resetRegs p
  pc := Config.pcReset
  fl := p.fl
  runState := .idle
  ir := 0
  fault := none
  out := []
  diag := []
  mem := []
  stack := p.stack
  loadErr := false
  pins := pins
  init := p

/-- The machine right after reset. DESIGN CHOICE (log 1, unsafe): the OPEN parameters are 0, as in the spec's test
configuration; no input port is asserted (log 4). The run starts when the host has loaded a program and asserts
`start` (R241, R242, log 2). -/
def State.reset : State := State.resetWith InitParams.zero Pins.quiet

end Sys2Proof.Machine
end

