-- ==== Sys2Proof/Machine/Flags.lean ====
section
/-! DEFINITION. What the ALU computes (R140 to R145): the exact natural-number result narrowed to a word, and the
comparison flag, which is the only flag (R32). -/

namespace Sys2Proof.Machine

/-- The sum of two words, modulo 256 (R141). -/
def addWord (u v : Word) : Word := BitVec.ofNat 8 (u.toNat + v.toNat)

/-- The product of two words, modulo 256 (R142). -/
def mulWord (u v : Word) : Word := BitVec.ofNat 8 (u.toNat * v.toNat)

/-- Bit 0 of `FL`: the last CMP found its operands equal (R30). -/
def flE (fl : Word) : Bool := fl.getLsbD 0

/-- Bit 1 of `FL`: the last CMP found its first operand greater (R30). -/
def flG (fl : Word) : Bool := fl.getLsbD 1

/-- Bit 2 of `FL`: the last CMP found its first operand less (R30). -/
def flL (fl : Word) : Bool := fl.getLsbD 2

/-- The value CMP writes to `FL` (R143): the words are compared unsigned, and exactly one of E, G, L is set. -/
def compareFlag (u v : Word) : Word :=
  if u.toNat = v.toNat then 0b00000001
  else if v.toNat < u.toNat then 0b00000010
  else 0b00000100

end Sys2Proof.Machine
end

