-- ==== Sys2Proof/Machine/Operands.lean ====
section
/-! DEFINITION. A raised fault as a value, and the operand forms (R24, R85): a register operand goes through `regIdx`,
the immediate of LDI is the whole operand word, unchanged. -/

namespace Sys2Proof.Machine

/-- A `raise`: the cause and its datum (R12, R201). -/
structure Raise where
  cause : Cause
  info : PcWord
  deriving DecidableEq, Repr

/-- `RegIdx(w)` (R24): the register a whole operand word names; 8 or more raises RegisterFault. -/
def regIdx (w : Word) : Except Raise (Fin 8) :=
  if h : w.toNat < 8 then .ok ⟨w.toNat, h⟩ else .error ⟨.registerFault, w.setWidth 9⟩

/-- The immediate operand of LDI: "the whole word", not extended, shifted or scaled (R85). -/
def immediate (w : Word) : Word := w

end Sys2Proof.Machine
end

