-- ==== Sys2Proof/Machine/Ops.lean ====
section
/-! DEFINITION. The named operations over storage, registers, stack and streams (R11), fault entry (R209), reset as
the only way out of it (R212, R243), and the end of an instruction. -/

namespace Sys2Proof

/-! ## Arrays of words in canonical form -/

/-- The cells from index `lo` up to `size` in canonical form: indices strictly rising, and no cell that is 0. -/
def Store.wfFrom (size : Nat) : Nat → Store → Bool
  | _, [] => true
  | lo, (a, v) :: rest => lo ≤ a && a < size && v != 0 && Store.wfFrom size (a + 1) rest

/-- The canonical form of an array of `size` words. -/
def Store.wf (size : Nat) (m : Store) : Bool := Store.wfFrom size 0 m

/-- The word at an index; a cell that is not listed holds 0. -/
def Store.read : Store → Nat → Word
  | [], _ => 0
  | (b, w) :: rest, a => if a = b then w else Store.read rest a

/-- A cell in front of cells of higher indices, listed unless it is 0. -/
def Store.list (a : Nat) (v : Word) (rest : Store) : Store := if v = 0 then rest else (a, v) :: rest

/-- Write the word at an index, keeping the canonical form. -/
def Store.write : Store → Nat → Word → Store
  | [], a, v => Store.list a v []
  | (b, w) :: rest, a, v =>
    if a < b then Store.list a v ((b, w) :: rest)
    else if a = b then Store.list a v rest
    else (b, w) :: Store.write rest a v

namespace Machine

/-- Memory is in canonical form: 255 words (R50). -/
def Memory.wf (m : Store) : Bool := Store.wf Config.memSize m

/-- The stack storage is in canonical form: 255 words (R55). -/
def Stack.wf (m : Store) : Bool := Store.wf Config.stackSize m

/-! ## Registers and the program counter -/

/-- `x[i]` (R20). -/
def State.reg (s : State) (i : Fin 8) : Word := s.x.get i

/-- `x[i] <- v` (R20). -/
def State.setReg (s : State) (i : Fin 8) (v : Word) : State := { s with x := s.x.set i v }

/-- `sp`, another name for `x[7]` (R21). -/
def State.sp (s : State) : Word := s.reg Config.spIndex

/-- `sp <- v` (R21). -/
def State.setSp (s : State) (v : Word) : State := s.setReg Config.spIndex v

/-- `pc <- target` (R26). -/
def State.setPc (s : State) (target : PcWord) : State := { s with pc := target }

/-- The address `k` words after the instruction word (R28), as a natural number: it never wraps (R52). -/
def State.pcPlus (s : State) (k : Nat) : Nat := s.pc.toNat + k

/-- `pc <- pc + k` (R27). -/
def State.skip (s : State) (k : Nat) : State := s.setPc (BitVec.ofNat 9 (s.pcPlus k))

/-- `pc <- pc + n + 1`: the controller's advance (R115, R116). -/
def State.advance (s : State) (n : BitVec 2) : State := s.skip (n.toNat + 1)

/-- `FL <- v` (R30). -/
def State.setFl (s : State) (v : Word) : State := { s with fl := v }

/-! ## Memory (R52, R53) -/

/-- `MemRead(addr, 1)`, the controller's read port (R52): an address of 255 or more raises MemoryFault. -/
def memRead (s : State) (addr : Nat) : Except Raise Word :=
  if addr < Config.memSize then .ok (s.mem.read addr) else .error ⟨.memoryFault, BitVec.ofNat 9 addr⟩

/-- `MemWrite(addr, 1, v)`, the host's write (R53): honoured in `Idle` at an address below 255, else refused with
`load_err`. DEDUCED (log 5): an honoured write clears `load_err`, which says whether the LAST host write was
refused (R41). -/
def State.memWrite (s : State) (addr : Nat) (v : Word) : State :=
  if s.runState = .idle ∧ addr < Config.memSize then { s with mem := s.mem.write addr v, loadErr := false }
  else { s with loadErr := true }

/-! ## The stack (R55 to R59) -/

/-- `S[i]` (R55). -/
def State.cell (s : State) (i : Word) : Word := s.stack.read i.toNat

/-- `S[i] <- v` (R55). -/
def State.setCell (s : State) (i v : Word) : State := { s with stack := s.stack.write i.toNat v }

/-- The push of PUSH and CALL (R57, R58): overflow at `sp = 0`, before any write; else decrement `sp` and then write
`S[sp]`. The word written is read from the state AFTER the decrement (R185). -/
def push (word : State → Word) (s : State) : Except Raise State :=
  if s.sp = 0 then .error ⟨.stackOverflow, 0⟩
  else
    let s' := s.setSp (s.sp - 1)
    .ok (s'.setCell s'.sp (word s'))

/-- `S[sp]` for POP and RET (R57, R59): underflow when `sp` is no index of the stack, before any write. -/
def stackTop (s : State) : Except Raise Word :=
  if s.sp.toNat < Config.stackSize then .ok (s.cell s.sp)
  else .error ⟨.stackUnderflow, s.sp.setWidth 9⟩

/-- `sp <- (sp + 1) mod 256` (R57). -/
def State.incSp (s : State) : State := s.setSp (s.sp + 1)

/-! ## The streams and the run state -/

/-- `Emit(v)` (R37). -/
def State.emit (s : State) (v : Word) : State := { s with out := s.out ++ [v] }

/-- `Diag(pc, ir)` (R38). -/
def State.emitDiag (s : State) : State := { s with diag := s.diag ++ [⟨s.pc, s.ir⟩] }

/-- `halt` (R34). -/
def State.halt (s : State) : State := { s with runState := .halted }

/-! ## Taking a fault, and reset -/

/-- Fault entry (R209): the run state becomes `Faulted` and the fault record is written; nothing else changes. There
is no handler, no vector and no mode. -/
def State.enterFault (s : State) (r : Raise) (fir : Option Word) : State :=
  { s with runState := .faulted, fault := some { cause := r.cause, fpc := s.pc, fir := fir, info := r.info } }

/-- No return from a fault exists (R212): reset is the only way out of `Faulted` (R243). It enters the reset state
from any run state (R240), with the machine's own OPEN parameters; the host's ports stay as the host drives them. -/
def State.enterReset (s : State) : State := State.resetWith s.init s.pins

/-- The end of an instruction: its next state, or fault entry from the state BEFORE the instruction (R12, R210), with
the instruction word as `fir` (R209). -/
def settle (s : State) : Except Raise State → Host.Outcome State Fault Refusal
  | .ok s' => .next s'
  | .error r => .next (s.enterFault r (some s.ir))

end Machine

end Sys2Proof
end

