-- ==== Sys2Proof/Machine/Alu.lean ====
section
/-! DEFINITION. The ALU instructions (41_alu.md): ADD, MUL, CMP. -/

namespace Sys2Proof.Machine

/-- ADD `Ra,Rb` (R141): `x[a] <- (x[a] + x[b]) mod 256`, then `pc <- pc + n + 1` (R115). -/
def execAdd (n : BitVec 2) (a b : Word) (s : State) : Host.Outcome State Fault Refusal :=
  settle s do
    let ia ← regIdx a
    let ib ← regIdx b
    return (s.setReg ia (addWord (s.reg ia) (s.reg ib))).advance n

/-- MUL `Ra,Rb` (R142): `x[a] <- (x[a] * x[b]) mod 256`, then `pc <- pc + n + 1` (R115). -/
def execMul (n : BitVec 2) (a b : Word) (s : State) : Host.Outcome State Fault Refusal :=
  settle s do
    let ia ← regIdx a
    let ib ← regIdx b
    return (s.setReg ia (mulWord (s.reg ia) (s.reg ib))).advance n

/-- CMP `Ra,Rb` (R143): all of `FL` from the unsigned comparison, then `pc <- pc + n + 1` (R115). -/
def execCmp (n : BitVec 2) (a b : Word) (s : State) : Host.Outcome State Fault Refusal :=
  settle s do
    let ia ← regIdx a
    let ib ← regIdx b
    return (s.setFl (compareFlag (s.reg ia) (s.reg ib))).advance n

end Sys2Proof.Machine
end

