-- ==== Sys2Proof/Machine/Control.lean ====
section
/-! DEFINITION. The control-flow instructions (42_control_flow.md): CALL, RET, JMP, JEQ, JNE. They set `pc` themselves
(R114); the word's `n` and `A` do not change what they do (R89). -/

namespace Sys2Proof.Machine

/-- CALL `Rr` (R160): push the return address `pc + 2`, then `pc <- x[r]`, read after the push. -/
def execCall (_n : BitVec 2) (_af : Bool) (r : Word) (s : State) : Host.Outcome State Fault Refusal :=
  settle s do
    let ri ← regIdx r
    let s' ← push (fun _ => BitVec.ofNat 8 (s.pcPlus 2)) s
    return s'.setPc (s'.reg ri).toPc

/-- RET (R161): `pc <- S[sp]`, then `sp <- sp + 1`. -/
def execRet (_n : BitVec 2) (_af : Bool) (s : State) : Host.Outcome State Fault Refusal :=
  settle s do
    let v ← stackTop s
    return (s.setPc v.toPc).incSp

/-- JMP `Rr` (R162): `pc <- x[r]`. -/
def execJmp (_n : BitVec 2) (_af : Bool) (r : Word) (s : State) : Host.Outcome State Fault Refusal :=
  settle s do
    let ri ← regIdx r
    return s.setPc (s.reg ri).toPc

/-- JEQ `Rr` (R163): `pc <- x[r]` if bit 0 of `FL` is 1, else `pc <- pc + 2`; the operand is checked either way. -/
def execJeq (_n : BitVec 2) (_af : Bool) (r : Word) (s : State) : Host.Outcome State Fault Refusal :=
  settle s do
    let ri ← regIdx r
    return if flE s.fl then s.setPc (s.reg ri).toPc else s.skip 2

/-- JNE `Rr` (R164): `pc <- x[r]` if bit 0 of `FL` is 0, else `pc <- pc + 2`; the operand is checked either way. -/
def execJne (_n : BitVec 2) (_af : Bool) (r : Word) (s : State) : Host.Outcome State Fault Refusal :=
  settle s do
    let ri ← regIdx r
    return if flE s.fl then s.skip 2 else s.setPc (s.reg ri).toPc

end Sys2Proof.Machine
end

