-- ==== Sys2Proof/Machine/Direct.lean ====
section
/-! DEFINITION. The direct-action instructions (43_direct_actions.md): HLT, LDI, PRN, POP, PUSH. After every one except
HLT the controller sets `pc <- pc + n + 1` (R116). -/

namespace Sys2Proof.Machine

/-- HLT (R181): the run state becomes `Halted`; `pc` keeps the HLT's address. -/
def execHlt (_n : BitVec 2) (s : State) : Host.Outcome State Fault Refusal :=
  settle s (.ok s.halt)

/-- LDI `Rr,imm` (R182): `x[r] <- imm`. -/
def execLdi (n : BitVec 2) (r imm : Word) (s : State) : Host.Outcome State Fault Refusal :=
  settle s do
    let ri ← regIdx r
    return (s.setReg ri (immediate imm)).advance n

/-- PRN `Rr` (R183): `Emit(x[r])`. -/
def execPrn (n : BitVec 2) (r : Word) (s : State) : Host.Outcome State Fault Refusal :=
  settle s do
    let ri ← regIdx r
    return (s.emit (s.reg ri)).advance n

/-- POP `Rr` (R184): `x[r] <- S[sp]`, then `sp <- (sp + 1) mod 256`, where `sp` is read after the write to `x[r]`. -/
def execPop (n : BitVec 2) (r : Word) (s : State) : Host.Outcome State Fault Refusal :=
  settle s do
    let ri ← regIdx r
    let v ← stackTop s
    return (s.setReg ri v).incSp.advance n

/-- PUSH `Rr` (R185): decrement `sp`, then `S[sp] <- x[r]`, where `x[r]` is read after the decrement. -/
def execPush (n : BitVec 2) (r : Word) (s : State) : Host.Outcome State Fault Refusal :=
  settle s do
    let ri ← regIdx r
    let s' ← push (fun t => t.reg ri) s
    return s'.advance n

end Sys2Proof.Machine
end

