-- ==== Sys2Proof/Syntax.lean ====
section
/-! DEFINITION. The instructions of the LS-8: one constructor for each row of spec/opcode_table.json. -/

namespace Sys2Proof

/-- The 13 instructions (R86). `n` is bits 7..6 of the instruction word and, in the PC-mutating family, `af` is its
bit 5 (the `A` flag): a word with another `n` or `A` than the canonical one still selects the instruction (R89), so
both are kept. Operands are whole words (R84, R85): a register operand of 8 or more is an instruction too, which
raises RegisterFault when it runs (R24). -/
inductive Instr where
  /-- `ADD Ra,Rb` (R141) -/
  | add (n : BitVec 2) (a b : Word)
  /-- `MUL Ra,Rb` (R142) -/
  | mul (n : BitVec 2) (a b : Word)
  /-- `CMP Ra,Rb` (R143) -/
  | cmp (n : BitVec 2) (a b : Word)
  /-- `CALL Rr` (R160) -/
  | call (n : BitVec 2) (af : Bool) (r : Word)
  /-- `RET` (R161) -/
  | ret (n : BitVec 2) (af : Bool)
  /-- `JMP Rr` (R162) -/
  | jmp (n : BitVec 2) (af : Bool) (r : Word)
  /-- `JEQ Rr` (R163) -/
  | jeq (n : BitVec 2) (af : Bool) (r : Word)
  /-- `JNE Rr` (R164) -/
  | jne (n : BitVec 2) (af : Bool) (r : Word)
  /-- `HLT` (R181) -/
  | hlt (n : BitVec 2)
  /-- `LDI Rr,imm` (R182) -/
  | ldi (n : BitVec 2) (r imm : Word)
  /-- `PRN Rr` (R183) -/
  | prn (n : BitVec 2) (r : Word)
  /-- `POP Rr` (R184) -/
  | pop (n : BitVec 2) (r : Word)
  /-- `PUSH Rr` (R185) -/
  | push (n : BitVec 2) (r : Word)
  deriving DecidableEq, Repr

end Sys2Proof
end

