-- ==== Sys2Proof/Machine/Dispatch.lean ====
section
/-! DEFINITION. The dispatch of R113: one arm per instruction. -/

namespace Sys2Proof.Machine

def exec (i : Instr) (s : State) : Host.Outcome State Fault Refusal :=
  match i with
  | .add n a b => Sys2Proof.Machine.execAdd n a b s
  | .mul n a b => Sys2Proof.Machine.execMul n a b s
  | .cmp n a b => Sys2Proof.Machine.execCmp n a b s
  | .call n af r => Sys2Proof.Machine.execCall n af r s
  | .ret n af => Sys2Proof.Machine.execRet n af s
  | .jmp n af r => Sys2Proof.Machine.execJmp n af r s
  | .jeq n af r => Sys2Proof.Machine.execJeq n af r s
  | .jne n af r => Sys2Proof.Machine.execJne n af r s
  | .hlt n => Sys2Proof.Machine.execHlt n s
  | .ldi n r imm => Sys2Proof.Machine.execLdi n r imm s
  | .prn n r => Sys2Proof.Machine.execPrn n r s
  | .pop n r => Sys2Proof.Machine.execPop n r s
  | .push n r => Sys2Proof.Machine.execPush n r s

end Sys2Proof.Machine
end

