-- ==== Sys2Proof/WellFormed.lean ====
section
/-! DEFINITION. Which instructions are canonical: the ones an assembler writes and the loader has validated (R87, C5).
The machine runs every `Instr`, well-formed or not (R24, R89); the check only says which have the canonical first word
and name registers that exist (log 13). -/

namespace Sys2Proof

/-- The number of operand words the instruction has (R84): the `n` of its canonical word (R87). -/
def Instr.operandCount : Instr → BitVec 2
  | .add _ _ _ | .mul _ _ _ | .cmp _ _ _ | .ldi _ _ _ => 2
  | .call _ _ _ | .jmp _ _ _ | .jeq _ _ _ | .jne _ _ _ | .prn _ _ | .pop _ _ | .push _ _ => 1
  | .ret _ _ | .hlt _ => 0

/-- Bits 7..6 of the instruction word (R80). -/
def Instr.n : Instr → BitVec 2
  | .add n _ _ | .mul n _ _ | .cmp n _ _ | .ldi n _ _ => n
  | .call n _ _ | .jmp n _ _ | .jeq n _ _ | .jne n _ _ => n
  | .prn n _ | .pop n _ | .push n _ | .ret n _ | .hlt n => n

/-- The operand words that are register indices (R85). -/
def Instr.registerOperands : Instr → List Word
  | .add _ a b | .mul _ a b | .cmp _ a b => [a, b]
  | .call _ _ r | .jmp _ _ r | .jeq _ _ r | .jne _ _ r => [r]
  | .ldi _ r _ | .prn _ r | .pop _ r | .push _ r => [r]
  | .ret _ _ | .hlt _ => []

/-- The first word's `n` is the canonical one (R87). -/
def Instr.countCanonical (i : Instr) : Bool := i.n == i.operandCount

/-- A PC-mutating instruction's `A` is 0, as in its canonical word (R87). -/
def Instr.aCanonical : Instr → Bool
  | .call _ af _ | .jmp _ af _ | .jeq _ af _ | .jne _ af _ | .ret _ af => !af
  | .add _ _ _ | .mul _ _ _ | .cmp _ _ _ | .ldi _ _ _ | .prn _ _ | .pop _ _ | .push _ _ | .hlt _ => true

/-- Every register operand names a register that exists (R24). -/
def Instr.registersExist (i : Instr) : Bool := i.registerOperands.all (· < 8)

/-- The instruction is one a canonical program is made of (R87, R24). -/
def Instr.wellFormed (i : Instr) : Bool := i.countCanonical && i.aCanonical && i.registersExist

end Sys2Proof
end

