-- ==== Sys2Proof/Decode.lean ====
section
/-! DEFINITION. The decoder (R80 to R93), total on any words and rejecting by name, and after it the encoder (R87),
written from the same tables. -/

namespace Sys2Proof

/-! ## The fields of the instruction word (R80) -/

/-- `n`, bits 7..6: the operand count. -/
def nField (ir : Word) : BitVec 2 := ir.extractLsb' 6 2

/-- `A`, bit 5: the ALU flag. -/
def aField (ir : Word) : Bool := ir.getLsbD 5

/-- `P`, bit 4: the PC-mutating flag. -/
def pField (ir : Word) : Bool := ir.getLsbD 4

/-- `code`, bits 3..0: the operation code. -/
def codeField (ir : Word) : BitVec 4 := ir.extractLsb' 0 4

/-! ## The opcode map (R86) -/

/-- The names of the 13 instructions. -/
inductive Op where
  | add | mul | cmp | call | ret | jmp | jeq | jne | hlt | ldi | prn | pop | push
  deriving DecidableEq, Repr

/-- The codes of the PC-mutating family (R86, first row). -/
def controlOp (code : BitVec 4) : Option Op :=
  match code.toNat with
  | 0b0000 => some .call
  | 0b0001 => some .ret
  | 0b0100 => some .jmp
  | 0b0101 => some .jeq
  | 0b0110 => some .jne
  | _ => none

/-- The codes of the ALU family (R86, second row). -/
def aluOp (code : BitVec 4) : Option Op :=
  match code.toNat with
  | 0b0000 => some .add
  | 0b0010 => some .mul
  | 0b0111 => some .cmp
  | _ => none

/-- The codes of the direct-action family (R86, third row). -/
def directOp (code : BitVec 4) : Option Op :=
  match code.toNat with
  | 0b0001 => some .hlt
  | 0b0010 => some .ldi
  | 0b0101 => some .push
  | 0b0110 => some .pop
  | 0b0111 => some .prn
  | _ => none

/-- The classes of R90. -/
inductive WordClass where
  | known (op : Op)
  | unknownControl
  | unknownAlu
  | unknownDirect
  deriving DecidableEq, Repr

/-- A family's known code, or its unknown class. -/
def classOr (unknown : WordClass) : Option Op → WordClass
  | some op => .known op
  | none => unknown

/-- The class of an instruction word: the flag bits first, `P` before `A`, then `code`; `n` takes no part
(R88, R90, R113). -/
def classify (ir : Word) : WordClass :=
  if pField ir then classOr .unknownControl (controlOp (codeField ir))
  else if aField ir then classOr .unknownAlu (aluOp (codeField ir))
  else classOr .unknownDirect (directOp (codeField ir))

/-- How many operand words an instruction reads (R84, R180). -/
def Op.operandsRead : Op → Nat
  | .add | .mul | .cmp | .ldi => 2
  | .call | .jmp | .jeq | .jne | .prn | .pop | .push => 1
  | .ret | .hlt => 0

/-- How many operand words the controller reads before the word's family acts: an unknown ALU word's two are read
(R115, R144), an unknown word of the other families has none read (R165, R117). -/
def WordClass.operandsRead : WordClass → Nat
  | .known op => op.operandsRead
  | .unknownAlu => 2
  | .unknownControl | .unknownDirect => 0

/-! ## The decoder -/

/-- Why words are no instruction. -/
inductive Reject where
  /-- there is no instruction word (R111) -/
  | noWord
  /-- the operand word `k` words after the instruction word is missing (R202) -/
  | missingOperand (k : Nat)
  /-- an unknown PC-mutating code (R165) -/
  | unknownControl (code : BitVec 4)
  /-- an unknown ALU code (R144) -/
  | unknownAlu (code : BitVec 4)
  /-- an unknown direct-action code, with the word's `n` (R117) -/
  | unknownDirect (n : BitVec 2)
  deriving DecidableEq, Repr

/-- The instruction of a name, with the fields of its word and its operand words (R84). -/
def Op.build (ir u v : Word) : Op → Instr
  | .add => .add (nField ir) u v
  | .mul => .mul (nField ir) u v
  | .cmp => .cmp (nField ir) u v
  | .call => .call (nField ir) (aField ir) u
  | .ret => .ret (nField ir) (aField ir)
  | .jmp => .jmp (nField ir) (aField ir) u
  | .jeq => .jeq (nField ir) (aField ir) u
  | .jne => .jne (nField ir) (aField ir) u
  | .hlt => .hlt (nField ir)
  | .ldi => .ldi (nField ir) u v
  | .prn => .prn (nField ir) u
  | .pop => .pop (nField ir) u
  | .push => .push (nField ir) u

/-- What a word and its operand words select, once the operand words it needs are there (R88 to R91). -/
def select (ir u v : Word) : Except Reject Instr :=
  match classify ir with
  | .known op => .ok (op.build ir u v)
  | .unknownControl => .error (.unknownControl (codeField ir))
  | .unknownAlu => .error (.unknownAlu (codeField ir))
  | .unknownDirect => .error (.unknownDirect (nField ir))

/-- The instruction at the head of a list of words, or why there is none. Words after the operands it reads are not
looked at. An operand word that is needed and missing is found before an unknown ALU code, and an unknown PC-mutating
or direct-action code before any operand (R211). -/
def decode : List Word → Except Reject Instr
  | [] => .error .noWord
  | ir :: ops =>
    if ops.length < (classify ir).operandsRead then .error (.missingOperand (ops.length + 1))
    else select ir (ops.getD 0 0) (ops.getD 1 0)

/-! ## The encoder -/

/-- The instruction word with the given fields (R80). -/
def irOf (n : BitVec 2) (a p : Bool) (code : BitVec 4) : Word :=
  n ++ BitVec.ofBool a ++ BitVec.ofBool p ++ code

/-- The first word of an instruction: its family's flags and its code (R86, R87). -/
def Instr.irWord : Instr → Word
  | .add n _ _ => irOf n true false 0b0000
  | .mul n _ _ => irOf n true false 0b0010
  | .cmp n _ _ => irOf n true false 0b0111
  | .call n af _ => irOf n af true 0b0000
  | .ret n af => irOf n af true 0b0001
  | .jmp n af _ => irOf n af true 0b0100
  | .jeq n af _ => irOf n af true 0b0101
  | .jne n af _ => irOf n af true 0b0110
  | .hlt n => irOf n false false 0b0001
  | .ldi n _ _ => irOf n false false 0b0010
  | .prn n _ => irOf n false false 0b0111
  | .pop n _ => irOf n false false 0b0110
  | .push n _ => irOf n false false 0b0101

/-- The operand words of an instruction, in ascending addresses (R84). -/
def Instr.operands : Instr → List Word
  | .add _ a b | .mul _ a b | .cmp _ a b => [a, b]
  | .ldi _ r imm => [r, imm]
  | .call _ _ r | .jmp _ _ r | .jeq _ _ r | .jne _ _ r | .prn _ r | .pop _ r | .push _ r => [r]
  | .ret _ _ | .hlt _ => []

/-- The words of an instruction, the first at the lowest address (R61, R84). -/
def encode (i : Instr) : List Word := i.irWord :: i.operands

/-! ## The opcode table's numbering -/

/-- The first three words of the bits of `w`, of which those from `nbits` up count as 0: bit 0 is the least significant
bit of the first word, and a later word's bits count on from it. Three words are the longest instruction (R84). -/
def tableWords (nbits w : Nat) : List Word :=
  let b := w % 2 ^ nbits
  [BitVec.ofNat 8 b, BitVec.ofNat 8 (b / 256), BitVec.ofNat 8 (b / 65536)]

/-- The instruction the decoder reads from the bits `w` as the opcode table numbers them. -/
def decodeTableWord (nbits w : Nat) : Option Instr :=
  match decode (tableWords nbits w) with
  | .ok i => some i
  | .error _ => none

end Sys2Proof
end

