-- ==== Sys2Proof/Machine/Fetch.lean ====
section
/-! DEFINITION. Fetch and decode (R111, R112), and what the controller does with words that are no instruction
(R117, R144, R165, R202). -/

namespace Sys2Proof.Machine

/-- The `k` words from address `a` up, as far as memory goes. -/
def wordsFrom (s : State) : Nat → Nat → List Word
  | 0, _ => []
  | k + 1, a =>
    match memRead s a with
    | .ok w => w :: wordsFrom s k (a + 1)
    | .error _ => []

/-- The instruction word at `pc` and the two words after it, as far as memory goes (R28, R84). Reads have no side
effect (R63), so that the decoder may be shown words an instruction does not read (log 10). -/
def State.window (s : State) : List Word := wordsFrom s 3 s.pc.toNat

/-- `ir <- MemRead(pc, 1)` (R111); a fetch that faults leaves `ir` (R12). -/
def State.latchIr (s : State) : State := { s with ir := s.window.headD s.ir }

/-- What the controller does, with `ir` latched, with words that are no instruction: a fault for a word that memory
does not hold (R111, R202), an unknown PC-mutating code (R165) or an unknown ALU code (R144); the soft diagnostic for
an unknown direct-action code (R117). -/
def State.rejected (s : State) : Reject → State
  | .noWord => s.enterFault ⟨.memoryFault, s.pc⟩ none
  | .missingOperand k => s.enterFault ⟨.memoryFault, BitVec.ofNat 9 (s.pcPlus k)⟩ (some s.ir)
  | .unknownControl code => s.enterFault ⟨.unsupportedControlOp, code.setWidth 9⟩ (some s.ir)
  | .unknownAlu code => s.enterFault ⟨.unsupportedOperation, code.setWidth 9⟩ (some s.ir)
  | .unknownDirect n => s.emitDiag.advance n

/-- Store words at successive addresses. -/
def placeWords : Store → Nat → List Word → Store
  | m, _, [] => m
  | m, a, w :: ws => placeWords (m.write a w) (a + 1) ws

/-- Where `withFetchWord` places an instruction of three words: at `pc` where they fit in memory, else at 0 (log 14). -/
def State.fetchPlace (s : State) : PcWord := if s.pcPlus 3 ≤ Config.memSize then s.pc else 0

end Sys2Proof.Machine
end

