-- ==== Sys2Proof/Machine/Ports.lean ====
section
/-! DEFINITION. The ports of R41: what the block does with its inputs (R53, R242, R249), its outputs as functions of
the state, and the host's load of a program (R71, R241). -/

namespace Sys2Proof.Machine

/-! ## Inputs -/

/-- The load port in one step: a host write while `load_we` is asserted (R53, R249). -/
def State.serveLoad (s : State) : State :=
  if s.pins.loadWe then s.memWrite s.pins.loadAddr.toNat s.pins.loadData else s

/-- Entering a run from `Idle` (R242): `pc <- 0`, `x[7] <- 255`, `Running`. -/
def State.startRun (s : State) : State :=
  { (s.setSp Config.spReset).setPc Config.pcReset with runState := .running }

/-- The `start` port of an idle block in one step (R242). -/
def State.serveStart (s : State) : State := if s.pins.start then s.startRun else s

/-- A step of a block that is not `Running`, with `rst` deasserted: the controller takes no step (R110). In `Idle` the
load port and `start` act, the load port first (DESIGN CHOICE, log 4); in `Halted` and `Faulted` only the refusal of a
host write is seen (R243, R249). -/
def State.waitStep (s : State) : State :=
  match s.runState with
  | .idle => s.serveLoad.serveStart
  | .running | .halted | .faulted => s.serveLoad

/-! ## Outputs -/

/-- `halted` -/
def State.haltedPort (s : State) : Bool := s.runState == .halted

/-- `faulted` -/
def State.faultedPort (s : State) : Bool := s.runState == .faulted

/-- The fault codes (R201). -/
def Cause.code : Cause → BitVec 3
  | .memoryFault => 1
  | .stackOverflow => 2
  | .stackUnderflow => 3
  | .registerFault => 4
  | .unsupportedOperation => 5
  | .unsupportedControlOp => 6

/-- `fault_cause`; code 0 is the empty record (R201). -/
def State.faultCausePort (s : State) : BitVec 3 := (s.fault.map (·.cause.code)).getD 0

/-- `fault_pc`. DESIGN CHOICE (log 15): 0 when the record is empty. -/
def State.faultPcPort (s : State) : PcWord := (s.fault.map (·.fpc)).getD 0

/-- `fault_ir`. DESIGN CHOICE (log 15): 0 when the record is empty or holds no instruction word. -/
def State.faultIrPort (s : State) : Word := (s.fault.bind (·.fir)).getD 0

/-- `fault_ir_valid` -/
def State.faultIrValidPort (s : State) : Bool := (s.fault.bind (·.fir)).isSome

/-- `fault_info`. DESIGN CHOICE (log 15): 0 when the record is empty. -/
def State.faultInfoPort (s : State) : PcWord := (s.fault.map (·.info)).getD 0

/-- `out_valid` and `out_data` of the step from `s` to `t`: the word it emitted, if any (R41). -/
def outEvent (s t : State) : Option Word := t.out[s.out.length]?

/-- `diag_valid`, `diag_pc` and `diag_ir` of the step from `s` to `t`: the pair it appended, if any (R41). -/
def diagEvent (s t : State) : Option DiagEntry := t.diag[s.diag.length]?

/-! ## The host's load -/

/-- Host writes at successive addresses (R241). -/
def State.loadFrom (s : State) : Nat → List Word → State
  | _, [] => s
  | a, w :: ws => (s.memWrite a w).loadFrom (a + 1) ws

/-- The host's load of a program (R71, R241): word `k` at address `k`. A program of more than 255 words cannot be
loaded, and no run starts (R220). -/
def State.loadProgram (s : State) (ws : List Word) : Option State :=
  if ws.length ≤ Config.memSize then some (s.loadFrom Config.loadBase ws) else none

end Sys2Proof.Machine
end

