-- ==== Sys2Proof/Machine/Step.lean ====
section
/-! DEFINITION. One step of the block: the ports of R41, then the controller's fetch, decode and dispatch (R110 to
R118). -/

namespace Sys2Proof.Machine

/-- The controller's step (R118): fetch, decode, and the instruction's meaning, or what words that are no instruction
do. -/
def controllerStep (s : State) : Host.Outcome State Fault Refusal :=
  match decode s.window with
  | .ok i => exec i s.latchIr
  | .error r => .next (s.latchIr.rejected r)

/-- One step. `rst` wins in every run state (R214, R240). Else a running block serves the load port, which refuses
the write (R249), and runs one instruction (R119); a block that is not running takes no step of the controller
(R110). -/
def step (s : State) : Host.Outcome State Fault Refusal :=
  if s.pins.rst then .next s.enterReset
  else if s.runState = .running then controllerStep s.serveLoad
  else .next s.waitStep

/-- `s` with the instruction whose bits are `w` placed where the next step fetches, and the run started: the words lie
at `pc` (at 0 where three words do not fit there), the run state is `Running` and `rst` is deasserted, so that the
very next step runs it (logs 2, 14). -/
def State.withFetchWord (s : State) (nbits w : Nat) : State :=
  { s with
    pc := s.fetchPlace
    mem := placeWords s.mem s.fetchPlace.toNat (tableWords nbits w)
    runState := .running
    pins := { s.pins with rst := false } }

end Sys2Proof.Machine
end

