-- ==== Sys2Proof/Safety.lean ====
section
/-! DEFINITION. What holds of every reachable state, in the terms claims use: the shape of a fault record (R36, R201,
R209), and the invariant of the block. -/

namespace Sys2Proof.Machine

/-- What the fault record says, cause by cause, about the state it was taken in (R201 to R207, R209); a fault changes
neither `pc`, memory nor `sp` (R210), so the state after it shows the same. -/
def FaultRecord.explains (r : FaultRecord) (s : State) : Prop :=
  r.fpc = s.pc ∧
  (∀ w, r.fir = some w → s.pc.toNat < 255 ∧ s.mem.read s.pc.toNat = w) ∧
  match r.cause with
  | .memoryFault =>
    255 ≤ r.info.toNat ∧ r.info.toNat ≤ 258 ∧
    ((r.fir = none ∧ 255 ≤ s.pc.toNat ∧ r.info = s.pc) ∨
     (r.fir.isSome ∧ (r.info.toNat = s.pc.toNat + 1 ∨ r.info.toNat = s.pc.toNat + 2)))
  | .stackOverflow => r.fir.isSome ∧ r.info = 0 ∧ s.sp = 0
  | .stackUnderflow => r.fir.isSome ∧ r.info = 255 ∧ s.sp = 255
  | .registerFault => r.fir.isSome ∧ 8 ≤ r.info.toNat ∧ r.info.toNat ≤ 255
  | .unsupportedOperation =>
    ∃ w, r.fir = some w ∧ classify w = .unknownAlu ∧ r.info = (codeField w).setWidth 9
  | .unsupportedControlOp =>
    ∃ w, r.fir = some w ∧ classify w = .unknownControl ∧ r.info = (codeField w).setWidth 9

/-- The invariant of the block: what the rules say of every state a run reaches, whatever the host does. -/
structure State.Inv (s : State) : Prop where
  /-- memory, the stack and `INIT_STACK` are arrays of 255 words in canonical form (R50, R55) -/
  memWf : Memory.wf s.mem = true
  stackWf : Stack.wf s.stack = true
  initWf : Stack.wf s.init.stack = true
  /-- the largest value `pc` can take is 258 (R27) -/
  pcBound : s.pc.toNat ≤ 258
  /-- `FL` is `INIT_FL` until the first CMP, and then one of 0x01, 0x02, 0x04 (R31, R33) -/
  flForm : s.fl = s.init.fl ∨ s.fl = 1 ∨ s.fl = 2 ∨ s.fl = 4
  /-- the fault record is empty in every run state but `Faulted` (R36) -/
  faultIff : s.fault.isSome = true ↔ s.runState = .faulted
  /-- a fault record says what happened (R201, R209) -/
  faultForm : ∀ r, s.fault = some r → r.explains s
  /-- a block in `Idle` is in the reset state, but for what the host has written (R240, R241) -/
  idleForm : s.runState = .idle →
    s = { State.resetWith s.init s.pins with mem := s.mem, loadErr := s.loadErr }
  /-- a halted block stands at an HLT word (R181) -/
  haltedForm : s.runState = .halted → s.pc.toNat < 255 ∧ classify (s.mem.read s.pc.toNat) = .known .hlt
  /-- every diagnostic names an unknown direct-action word where it lies in memory (R38, R117) -/
  diagForm : ∀ d ∈ s.diag,
    d.pc.toNat < 255 ∧ s.mem.read d.pc.toNat = d.ir ∧ classify d.ir = .unknownDirect

/-! ## The terms of the claims -/

/-- The controller takes a step: the block is `Running` and `rst` is deasserted (R110, R214). -/
def State.live (s : State) : Prop := s.runState = .running ∧ s.pins.rst = false

/-- A running block after the fetch of `w` (R111): `ir` holds it, and a host write in the same step has been refused
(R249, log 6). -/
def State.fetched (s : State) (w : Word) : State :=
  { s with ir := w, loadErr := s.loadErr || s.pins.loadWe }

/-- The words memory holds at `pc`, `pc + 1` and `pc + 2`, as far as there are addresses (R28, R50). -/
def State.wordsAtPc (s : State) : List Word :=
  ([0, 1, 2].filter fun k => s.pc.toNat + k < 255).map fun k => s.mem.read (s.pc.toNat + k)

/-- The state after the fault of an instruction whose word is in `ir` (R209): the run state and the record, nothing
else. -/
def State.faultedWith (s : State) (cause : Cause) (info : Nat) : State :=
  { s with runState := .faulted, fault := some ⟨cause, s.pc, some s.ir, BitVec.ofNat 9 info⟩ }

/-- The operand word that names register `i` (R24, R85). -/
def regWord (i : Fin 8) : Word := BitVec.ofNat 8 i.val

/-- An instruction word with `k` operands, fetched where memory does not hold them all, faults in the operand fetch:
the first address outside memory is 255 (R202). -/
def OperandFetchFaults (ir : Word) (k : Nat) : Prop :=
  ∀ s : State, s.live → s.pc.toNat < 255 → s.mem.read s.pc.toNat = ir → 255 ≤ s.pc.toNat + k →
    step s = .next ((s.fetched ir).faultedWith .memoryFault 255)

/-- An instruction with one register operand raises RegisterFault for a word of 8 or more (R24). -/
def OneRegisterFaults (mk : Word → Instr) : Prop :=
  ∀ (r : Word) (s : State), 8 ≤ r.toNat → exec (mk r) s = .next (s.faultedWith .registerFault r.toNat)

/-- An instruction with two register operands raises RegisterFault for a word of 8 or more, the first operand before
the second (R24, R211). -/
def TwoRegisterFaults (mk : Word → Word → Instr) : Prop :=
  ∀ (a b : Word) (s : State),
    (8 ≤ a.toNat → exec (mk a b) s = .next (s.faultedWith .registerFault a.toNat)) ∧
    (a.toNat < 8 → 8 ≤ b.toNat → exec (mk a b) s = .next (s.faultedWith .registerFault b.toNat))

/-- The fault the words at `pc` raise, or none: the checks of R211, in its order. -/
def State.firstFault (s : State) : Option Raise :=
  let ir := s.mem.read s.pc.toNat
  let u := s.mem.read (s.pc.toNat + 1)
  let v := s.mem.read (s.pc.toNat + 2)
  let c := classify ir
  if 255 ≤ s.pc.toNat then some ⟨.memoryFault, s.pc⟩
  else if c = .unknownControl then some ⟨.unsupportedControlOp, (codeField ir).setWidth 9⟩
  else if 1 ≤ c.operandsRead ∧ 255 ≤ s.pc.toNat + 1 then some ⟨.memoryFault, BitVec.ofNat 9 (s.pc.toNat + 1)⟩
  else if 2 ≤ c.operandsRead ∧ 255 ≤ s.pc.toNat + 2 then some ⟨.memoryFault, BitVec.ofNat 9 (s.pc.toNat + 2)⟩
  else if c = .unknownAlu then some ⟨.unsupportedOperation, (codeField ir).setWidth 9⟩
  else if 1 ≤ c.operandsRead ∧ 8 ≤ u.toNat then some ⟨.registerFault, u.setWidth 9⟩
  else if (c = .known .add ∨ c = .known .mul ∨ c = .known .cmp) ∧ 8 ≤ v.toNat then
    some ⟨.registerFault, v.setWidth 9⟩
  else if (c = .known .push ∨ c = .known .call) ∧ s.sp = 0 then some ⟨.stackOverflow, 0⟩
  else if (c = .known .pop ∨ c = .known .ret) ∧ s.sp = 255 then some ⟨.stackUnderflow, 255⟩
  else none

/-- The registers an instruction may write (R22). -/
def mayWrite : Instr → List Nat
  | .add _ a _ | .mul _ a _ => [a.toNat]
  | .ldi _ r _ => [r.toNat]
  | .pop _ r => [r.toNat, 7]
  | .push _ _ | .call _ _ _ | .ret _ _ => [7]
  | .cmp _ _ _ | .prn _ _ | .jmp _ _ _ | .jeq _ _ _ | .jne _ _ _ | .hlt _ => []

end Sys2Proof.Machine
end

