-- ==== Sys2Proof/Certificates/Slice0/Obligations.lean ====
section
/-! DEFINITION. The statements for the provers. Where one gives the whole next state of a step, the `ir` in it is no
claim of the rule the statement cites: R35 leaves `ir` between steps open and the model keeps the fetched word (log 3);
`FetchReadsOrFaults` is the statement about it. -/

open Sys2Proof Sys2Proof.Machine

/-! ## Encoding and decoding -/

/-- R87: each of the 13 canonical words, with its operands, decodes to its instruction, is the word the instruction
encodes to, and the instruction is as long as the table says. -/
def Obligations.CanonicalWordsDecode : Prop :=
  ∀ (u v : Word) (rest : List Word),
    (decode (0xA0 :: u :: v :: rest) = .ok (.add 2 u v) ∧ encode (.add 2 u v) = [0xA0, u, v]) ∧
    (decode (0xA2 :: u :: v :: rest) = .ok (.mul 2 u v) ∧ encode (.mul 2 u v) = [0xA2, u, v]) ∧
    (decode (0xA7 :: u :: v :: rest) = .ok (.cmp 2 u v) ∧ encode (.cmp 2 u v) = [0xA7, u, v]) ∧
    (decode (0x50 :: u :: rest) = .ok (.call 1 false u) ∧ encode (.call 1 false u) = [0x50, u]) ∧
    (decode (0x11 :: rest) = .ok (.ret 0 false) ∧ encode (.ret 0 false) = [0x11]) ∧
    (decode (0x54 :: u :: rest) = .ok (.jmp 1 false u) ∧ encode (.jmp 1 false u) = [0x54, u]) ∧
    (decode (0x55 :: u :: rest) = .ok (.jeq 1 false u) ∧ encode (.jeq 1 false u) = [0x55, u]) ∧
    (decode (0x56 :: u :: rest) = .ok (.jne 1 false u) ∧ encode (.jne 1 false u) = [0x56, u]) ∧
    (decode (0x01 :: rest) = .ok (.hlt 0) ∧ encode (.hlt 0) = [0x01]) ∧
    (decode (0x82 :: u :: v :: rest) = .ok (.ldi 2 u v) ∧ encode (.ldi 2 u v) = [0x82, u, v]) ∧
    (decode (0x47 :: u :: rest) = .ok (.prn 1 u) ∧ encode (.prn 1 u) = [0x47, u]) ∧
    (decode (0x46 :: u :: rest) = .ok (.pop 1 u) ∧ encode (.pop 1 u) = [0x46, u]) ∧
    (decode (0x45 :: u :: rest) = .ok (.push 1 u) ∧ encode (.push 1 u) = [0x45, u])

/-- R88: the class of a word depends on `P`, `A` and `code` alone, in that order, and with `P = 1` not on `A`. -/
def Obligations.SelectionByFlagsThenCode : Prop :=
  ∀ ir : Word,
    (pField ir = true → classify ir = classOr .unknownControl (controlOp (codeField ir))) ∧
    (pField ir = false → aField ir = true → classify ir = classOr .unknownAlu (aluOp (codeField ir))) ∧
    (pField ir = false → aField ir = false → classify ir = classOr .unknownDirect (directOp (codeField ir)))

/-- R90: the class of each of the 256 words, and how many words and canonical words each class has. -/
def Obligations.EveryWordHasOneClass : Prop :=
  let words := (List.range 256).map (BitVec.ofNat 8)
  let code (ir : Word) := (codeField ir).toNat
  let known (ir : Word) := ∃ op, classify ir = .known op
  (∀ ir : Word,
    (classify ir = .unknownControl ↔ pField ir = true ∧ code ir ∉ [0, 1, 4, 5, 6]) ∧
    (classify ir = .unknownAlu ↔ pField ir = false ∧ aField ir = true ∧ code ir ∉ [0, 2, 7]) ∧
    (classify ir = .unknownDirect ↔ pField ir = false ∧ aField ir = false ∧ code ir ∉ [1, 2, 5, 6, 7]) ∧
    (known ir ↔
      (pField ir = true ∧ code ir ∈ [0, 1, 4, 5, 6]) ∨
      (pField ir = false ∧ aField ir = true ∧ code ir ∈ [0, 2, 7]) ∨
      (pField ir = false ∧ aField ir = false ∧ code ir ∈ [1, 2, 5, 6, 7]))) ∧
  (words.countP fun ir => pField ir && decide (code ir ∈ [0, 1, 4, 5, 6])) = 40 ∧
  (words.countP fun ir => decide (classify ir = .unknownControl)) = 88 ∧
  (words.countP fun ir => !pField ir && aField ir && decide (code ir ∈ [0, 2, 7])) = 12 ∧
  (words.countP fun ir => decide (classify ir = .unknownAlu)) = 52 ∧
  (words.countP fun ir => !pField ir && !aField ir && decide (code ir ∈ [1, 2, 5, 6, 7])) = 20 ∧
  (words.countP fun ir => decide (classify ir = .unknownDirect)) = 44 ∧
  (words.countP fun ir => pField ir && !aField ir && decide (code ir ∈ [0, 1, 4, 5, 6]) &&
    ((nField ir).toNat == (classify ir).operandsRead)) = 5 ∧
  (words.countP fun ir => !pField ir && aField ir && decide (code ir ∈ [0, 2, 7]) &&
    ((nField ir).toNat == (classify ir).operandsRead)) = 3 ∧
  (words.countP fun ir => !pField ir && !aField ir && decide (code ir ∈ [1, 2, 5, 6, 7]) &&
    ((nField ir).toNat == (classify ir).operandsRead)) = 5

/-- Decoding an encoded instruction gives it back, whatever its fields and operands and whatever words follow. -/
def Obligations.DecodeEncode : Prop :=
  ∀ (i : Instr) (rest : List Word), decode (encode i ++ rest) = .ok i

/-- The words an instruction was decoded from begin with its encoding: each instruction has one encoding. -/
def Obligations.DecodedWordsAreTheEncoding : Prop :=
  ∀ (ws : List Word) (i : Instr), decode ws = .ok i → encode i <+: ws

/-! ## The step -/

/-- A step runs the decoded instruction: where the words at `pc` decode to `i`, the step of a running block is `exec i`
with `ir` holding the fetched word. The meaning itself moves `pc`. -/
def Obligations.StepRunsTheDecodedInstruction : Prop :=
  ∀ (s : State) (i : Instr), s.live → decode s.wordsAtPc = .ok i →
    step s = exec i (s.fetched (s.mem.read s.pc.toNat))

/-- The instruction that `withFetchWord` places is the one the next step runs, from every state with a well-formed
memory. -/
def Obligations.PlacedWordRunsNext : Prop :=
  ∀ (s : State) (nbits w : Nat) (i : Instr), Memory.wf s.mem = true → decodeTableWord nbits w = some i →
    (s.withFetchWord nbits w).live ∧
    step (s.withFetchWord nbits w) =
      exec i ((s.withFetchWord nbits w).fetched (BitVec.ofNat 8 (w % 2 ^ nbits)))

/-- Every step answers a next state, from every state: the model never stops. -/
def Obligations.StepAlwaysAnswersNext : Prop :=
  ∀ s : State, ∃ t, step s = .next t

/-- R110: in `Idle`, `Halted` and `Faulted` the controller takes no step: whatever the host's load port and `start` do,
`FL`, the registers `x[0]` to `x[6]`, the stack, the streams and the fault record stay, and without `start` the
whole register file, `pc` and the run state too. -/
def Obligations.NoStepUnlessRunning : Prop :=
  ∀ s : State, s.runState ≠ .running → s.pins.rst = false →
    ∃ t, step s = .next t ∧
      t.fl = s.fl ∧ t.stack = s.stack ∧ t.out = s.out ∧ t.diag = s.diag ∧ t.fault = s.fault ∧
      (∀ i : Fin 8, i ≠ 7 → t.reg i = s.reg i) ∧
      (¬(s.runState = .idle ∧ s.pins.start = true) → t.x = s.x ∧ t.pc = s.pc ∧ t.runState = s.runState)

/-- A step of a running block latches the word at `pc`, or faults when `pc` is no address, with no `fir` (R111). That the
NEXT state's `ir` is the fetched word is the model's choice (log 3): R35 says that `ir` between steps is not
architectural. The clause for 255 and up is R111's. -/
def Obligations.FetchReadsOrFaults : Prop :=
  ∀ s : State, s.live →
    (s.pc.toNat < 255 → ∃ t, step s = .next t ∧ t.ir = s.mem.read s.pc.toNat) ∧
    (255 ≤ s.pc.toNat → step s = .next
      { s with loadErr := s.loadErr || s.pins.loadWe, runState := .faulted,
               fault := some ⟨.memoryFault, s.pc, none, s.pc⟩ })

/-- R202, R52: MemoryFault at the fetch of `ir` has no `fir`, at an operand fetch it has; `info` is the address out of
range. -/
def Obligations.MemoryFaultsAtFetches : Prop :=
  (∀ (s : State) (a : PcWord),
    (a.toNat < 255 → memRead s a.toNat = .ok (s.mem.read a.toNat)) ∧
    (255 ≤ a.toNat → memRead s a.toNat = .error ⟨.memoryFault, a⟩)) ∧
  (∀ s : State, s.live → 255 ≤ s.pc.toNat →
    ∃ t, step s = .next t ∧ t.runState = .faulted ∧ t.fault = some ⟨.memoryFault, s.pc, none, s.pc⟩) ∧
  (∀ (s : State) (k : Nat), s.live → s.pc.toNat < 255 → 1 ≤ k →
    k ≤ (classify (s.mem.read s.pc.toNat)).operandsRead → s.pc.toNat + k = 255 →
    ∃ t, step s = .next t ∧ t.runState = .faulted ∧
      t.fault = some ⟨.memoryFault, s.pc, some (s.mem.read s.pc.toNat), BitVec.ofNat 9 (s.pc.toNat + k)⟩)

/-- R117: an unknown direct-action word appends `(pc, ir)` to the diagnostic stream and `pc` moves by `n + 1`; nothing
else changes, and the run stays `Running`. -/
def Obligations.UnknownDirectWordIsDiagnosed : Prop :=
  ∀ s : State, s.live → s.pc.toNat < 255 → classify (s.mem.read s.pc.toNat) = .unknownDirect →
    step s = .next
      { s.fetched (s.mem.read s.pc.toNat) with
        diag := s.diag ++ [⟨s.pc, s.mem.read s.pc.toNat⟩]
        pc := BitVec.ofNat 9 (s.pc.toNat + (nField (s.mem.read s.pc.toNat)).toNat + 1) }

/-- R144: an unknown ALU code raises UnsupportedOperation, after its two operand fetches and whatever registers they
name. -/
def Obligations.UnknownAluCodeFaults : Prop :=
  ∀ s : State, s.live → s.pc.toNat < 255 → classify (s.mem.read s.pc.toNat) = .unknownAlu →
    (s.pc.toNat + 2 < 255 → step s = .next ((s.fetched (s.mem.read s.pc.toNat)).faultedWith
      .unsupportedOperation (codeField (s.mem.read s.pc.toNat)).toNat)) ∧
    (255 ≤ s.pc.toNat + 2 → step s = .next ((s.fetched (s.mem.read s.pc.toNat)).faultedWith .memoryFault 255))

/-- R165: an unknown PC-mutating code raises UnsupportedControlOp before any operand is read, so at 254 too. -/
def Obligations.UnknownControlCodeFaults : Prop :=
  ∀ s : State, s.live → s.pc.toNat < 255 → classify (s.mem.read s.pc.toNat) = .unknownControl →
    step s = .next ((s.fetched (s.mem.read s.pc.toNat)).faultedWith
      .unsupportedControlOp (codeField (s.mem.read s.pc.toNat)).toNat)

/-- R211 with R209 and R210: a step of a running block raises exactly the first fault of the list, and then changes
nothing but the run state, the fault record and what the fetch itself latches; where there is none, the run goes on or
halts, and the record is untouched. -/
def Obligations.FirstFaultIsRaised : Prop :=
  ∀ s : State, s.live →
    (s.firstFault = none → ∃ t, step s = .next t ∧ (t.runState = .running ∨ t.runState = .halted) ∧
      t.fault = s.fault) ∧
    (∀ r, s.firstFault = some r →
      step s = .next
        (if s.pc.toNat < 255 then
          { s.fetched (s.mem.read s.pc.toNat) with
            runState := .faulted, fault := some ⟨r.cause, s.pc, some (s.mem.read s.pc.toNat), r.info⟩ }
        else
          { s with loadErr := s.loadErr || s.pins.loadWe, runState := .faulted,
                   fault := some ⟨r.cause, s.pc, none, r.info⟩ }))

/-- R209: fault entry sets the run state and the record, drives the fault ports with it, and changes nothing else. -/
def Obligations.FaultEntry : Prop :=
  ∀ (s : State) (r : Raise) (fir : Option Word),
    s.enterFault r fir = { s with runState := .faulted, fault := some ⟨r.cause, s.pc, fir, r.info⟩ } ∧
    (s.enterFault r fir).faultedPort = true ∧ (s.enterFault r fir).faultCausePort = r.cause.code ∧
    (s.enterFault r fir).faultPcPort = s.pc ∧ (s.enterFault r fir).faultIrValidPort = fir.isSome ∧
    (∀ w, (s.enterFault r (some w)).faultIrPort = w) ∧ (s.enterFault r fir).faultInfoPort = r.info

/-- R210: after a step that faults, every register, `FL`, `pc`, memory, the stack and the two streams hold what they
held before. -/
def Obligations.FaultsArePrecise : Prop :=
  ∀ s t : State, s.live → step s = .next t → t.runState = .faulted →
    (∀ i : Fin 8, t.reg i = s.reg i) ∧ t.fl = s.fl ∧ t.pc = s.pc ∧ (∀ a, t.mem.read a = s.mem.read a) ∧
    (∀ k : Word, t.cell k = s.cell k) ∧ t.out = s.out ∧ t.diag = s.diag

/-- R201: the codes of the causes; 0 is the empty record, and 7 is unused. -/
def Obligations.FaultCodes : Prop :=
  Cause.code .memoryFault = 1 ∧ Cause.code .stackOverflow = 2 ∧ Cause.code .stackUnderflow = 3 ∧
  Cause.code .registerFault = 4 ∧ Cause.code .unsupportedOperation = 5 ∧ Cause.code .unsupportedControlOp = 6 ∧
  (∀ s : State, (s.fault = none ↔ s.faultCausePort = 0) ∧ s.faultCausePort ≠ 7)

/-- Halting and going on: a step of a running block halts exactly where it fetches an HLT word. -/
def Obligations.OnlyHltHalts : Prop :=
  ∀ s t : State, s.live → step s = .next t →
    (t.runState = .halted ↔ s.pc.toNat < 255 ∧ classify (s.mem.read s.pc.toNat) = .known .hlt)

/-- R27: the next `pc` of a step of a running block that can fetch is at most 258, and at most 255 after a word whose
`n` is 2 or less (a canonical word's is), so that the 9-bit `pc` never wraps. -/
def Obligations.NextPcIsBounded : Prop :=
  ∀ s t : State, s.live → s.pc.toNat < 255 → step s = .next t →
    t.pc.toNat ≤ 258 ∧
    (∀ op, classify (s.mem.read s.pc.toNat) = .known op →
      (nField (s.mem.read s.pc.toNat)).toNat ≤ op.operandsRead → t.pc.toNat ≤ 255)

/-! ## The instructions -/

/-- R141 -/
def Obligations.AddSumsModulo256 : Prop :=
  irOf 2 true false 0b0000 = 0xA0 ∧
  (∀ (n : BitVec 2) (a b : Word) (rest : List Word),
    decode (irOf n true false 0b0000 :: a :: b :: rest) = .ok (.add n a b)) ∧
  (∀ n : BitVec 2, OperandFetchFaults (irOf n true false 0b0000) 2) ∧
  (∀ n : BitVec 2, TwoRegisterFaults (.add n)) ∧
  (∀ (n : BitVec 2) (i j : Fin 8) (s : State),
    exec (.add n (regWord i) (regWord j)) s = .next
      { s with x := s.x.set i (BitVec.ofNat 8 ((s.reg i).toNat + (s.reg j).toNat))
               pc := BitVec.ofNat 9 (s.pc.toNat + n.toNat + 1) })

/-- R142 -/
def Obligations.MulKeepsLowByte : Prop :=
  irOf 2 true false 0b0010 = 0xA2 ∧
  (∀ (n : BitVec 2) (a b : Word) (rest : List Word),
    decode (irOf n true false 0b0010 :: a :: b :: rest) = .ok (.mul n a b)) ∧
  (∀ n : BitVec 2, OperandFetchFaults (irOf n true false 0b0010) 2) ∧
  (∀ n : BitVec 2, TwoRegisterFaults (.mul n)) ∧
  (∀ (n : BitVec 2) (i j : Fin 8) (s : State),
    exec (.mul n (regWord i) (regWord j)) s = .next
      { s with x := s.x.set i (BitVec.ofNat 8 ((s.reg i).toNat * (s.reg j).toNat))
               pc := BitVec.ofNat 9 (s.pc.toNat + n.toNat + 1) })

/-- R143 -/
def Obligations.CmpSetsExactlyOneFlag : Prop :=
  irOf 2 true false 0b0111 = 0xA7 ∧
  (∀ (n : BitVec 2) (a b : Word) (rest : List Word),
    decode (irOf n true false 0b0111 :: a :: b :: rest) = .ok (.cmp n a b)) ∧
  (∀ n : BitVec 2, OperandFetchFaults (irOf n true false 0b0111) 2) ∧
  (∀ n : BitVec 2, TwoRegisterFaults (.cmp n)) ∧
  (∀ (n : BitVec 2) (i j : Fin 8) (s : State), ∃ f : Word,
    exec (.cmp n (regWord i) (regWord j)) s = .next
      { s with fl := f, pc := BitVec.ofNat 9 (s.pc.toNat + n.toNat + 1) } ∧
    ((s.reg i).toNat = (s.reg j).toNat → f = 0x01) ∧
    ((s.reg j).toNat < (s.reg i).toNat → f = 0x02) ∧
    ((s.reg i).toNat < (s.reg j).toNat → f = 0x04))

/-- R160 -/
def Obligations.CallPushesReturnAddress : Prop :=
  irOf 1 false true 0b0000 = 0x50 ∧
  (∀ (n : BitVec 2) (af : Bool) (r : Word) (rest : List Word),
    decode (irOf n af true 0b0000 :: r :: rest) = .ok (.call n af r)) ∧
  (∀ (n : BitVec 2) (af : Bool), OperandFetchFaults (irOf n af true 0b0000) 1) ∧
  (∀ (n : BitVec 2) (af : Bool), OneRegisterFaults (.call n af)) ∧
  (∀ (n : BitVec 2) (af : Bool) (i : Fin 8) (s : State), s.reg 7 = 0 →
    exec (.call n af (regWord i)) s = .next (s.faultedWith .stackOverflow 0)) ∧
  (∀ (n : BitVec 2) (af : Bool) (i : Fin 8) (s : State) (d ret : Word),
    (s.reg 7).toNat = d.toNat + 1 → s.pc.toNat + 1 < 255 → ret.toNat = s.pc.toNat + 2 →
    exec (.call n af (regWord i)) s = .next
      { s with x := s.x.set 7 d, stack := s.stack.write d.toNat ret
               pc := BitVec.ofNat 9 (if i = 7 then d else s.reg i).toNat })

/-- R161 -/
def Obligations.RetPopsIntoPc : Prop :=
  irOf 0 false true 0b0001 = 0x11 ∧
  (∀ (n : BitVec 2) (af : Bool) (rest : List Word),
    decode (irOf n af true 0b0001 :: rest) = .ok (.ret n af)) ∧
  (∀ (n : BitVec 2) (af : Bool) (s : State), s.reg 7 = 255 →
    exec (.ret n af) s = .next (s.faultedWith .stackUnderflow 255)) ∧
  (∀ (n : BitVec 2) (af : Bool) (s : State), (s.reg 7).toNat < 255 →
    exec (.ret n af) s = .next
      { s with pc := BitVec.ofNat 9 (s.stack.read (s.reg 7).toNat).toNat
               x := s.x.set 7 (BitVec.ofNat 8 ((s.reg 7).toNat + 1)) })

/-- R162 -/
def Obligations.JmpSetsPc : Prop :=
  irOf 1 false true 0b0100 = 0x54 ∧
  (∀ (n : BitVec 2) (af : Bool) (r : Word) (rest : List Word),
    decode (irOf n af true 0b0100 :: r :: rest) = .ok (.jmp n af r)) ∧
  (∀ (n : BitVec 2) (af : Bool), OperandFetchFaults (irOf n af true 0b0100) 1) ∧
  (∀ (n : BitVec 2) (af : Bool), OneRegisterFaults (.jmp n af)) ∧
  (∀ (n : BitVec 2) (af : Bool) (i : Fin 8) (s : State),
    exec (.jmp n af (regWord i)) s = .next { s with pc := BitVec.ofNat 9 (s.reg i).toNat })

/-- R163 -/
def Obligations.JeqJumpsOnEqual : Prop :=
  irOf 1 false true 0b0101 = 0x55 ∧
  (∀ (n : BitVec 2) (af : Bool) (r : Word) (rest : List Word),
    decode (irOf n af true 0b0101 :: r :: rest) = .ok (.jeq n af r)) ∧
  (∀ (n : BitVec 2) (af : Bool), OperandFetchFaults (irOf n af true 0b0101) 1) ∧
  (∀ (n : BitVec 2) (af : Bool), OneRegisterFaults (.jeq n af)) ∧
  (∀ (n : BitVec 2) (af : Bool) (i : Fin 8) (s : State),
    exec (.jeq n af (regWord i)) s = .next
      { s with pc := BitVec.ofNat 9 (if s.fl.getLsbD 0 = true then (s.reg i).toNat else s.pc.toNat + 2) })

/-- R164 -/
def Obligations.JneJumpsOnNotEqual : Prop :=
  irOf 1 false true 0b0110 = 0x56 ∧
  (∀ (n : BitVec 2) (af : Bool) (r : Word) (rest : List Word),
    decode (irOf n af true 0b0110 :: r :: rest) = .ok (.jne n af r)) ∧
  (∀ (n : BitVec 2) (af : Bool), OperandFetchFaults (irOf n af true 0b0110) 1) ∧
  (∀ (n : BitVec 2) (af : Bool), OneRegisterFaults (.jne n af)) ∧
  (∀ (n : BitVec 2) (af : Bool) (i : Fin 8) (s : State),
    exec (.jne n af (regWord i)) s = .next
      { s with pc := BitVec.ofNat 9 (if s.fl.getLsbD 0 = false then (s.reg i).toNat else s.pc.toNat + 2) })

/-- R181 -/
def Obligations.HltHaltsInPlace : Prop :=
  irOf 0 false false 0b0001 = 0x01 ∧
  (∀ (n : BitVec 2) (rest : List Word), decode (irOf n false false 0b0001 :: rest) = .ok (.hlt n)) ∧
  (∀ (n : BitVec 2) (s : State), exec (.hlt n) s = .next { s with runState := .halted }) ∧
  (∀ s : State, s.runState = .halted → s.pins.rst = false →
    ∃ t, step s = .next t ∧ t.runState = .halted ∧ t.pc = s.pc) ∧
  (∀ (i : Instr) (s t : State), exec i s = .next t → s.runState ≠ .halted → t.runState = .halted →
    ∃ n, i = .hlt n)

/-- R182 -/
def Obligations.LdiLoadsImmediate : Prop :=
  irOf 2 false false 0b0010 = 0x82 ∧
  (∀ (n : BitVec 2) (r imm : Word) (rest : List Word),
    decode (irOf n false false 0b0010 :: r :: imm :: rest) = .ok (.ldi n r imm)) ∧
  (∀ n : BitVec 2, OperandFetchFaults (irOf n false false 0b0010) 2) ∧
  (∀ (n : BitVec 2) (imm : Word), OneRegisterFaults fun r => .ldi n r imm) ∧
  (∀ (n : BitVec 2) (i : Fin 8) (imm : Word) (s : State),
    exec (.ldi n (regWord i) imm) s = .next
      { s with x := s.x.set i imm, pc := BitVec.ofNat 9 (s.pc.toNat + n.toNat + 1) })

/-- R183 -/
def Obligations.PrnEmitsRegister : Prop :=
  irOf 1 false false 0b0111 = 0x47 ∧
  (∀ (n : BitVec 2) (r : Word) (rest : List Word),
    decode (irOf n false false 0b0111 :: r :: rest) = .ok (.prn n r)) ∧
  (∀ n : BitVec 2, OperandFetchFaults (irOf n false false 0b0111) 1) ∧
  (∀ n : BitVec 2, OneRegisterFaults (.prn n)) ∧
  (∀ (n : BitVec 2) (i : Fin 8) (s : State), ∃ t,
    exec (.prn n (regWord i)) s = .next t ∧
    t = { s with out := s.out ++ [s.reg i], pc := BitVec.ofNat 9 (s.pc.toNat + n.toNat + 1) } ∧
    outEvent s t = some (s.reg i))

/-- R184 -/
def Obligations.PopLoadsThenIncrements : Prop :=
  irOf 1 false false 0b0110 = 0x46 ∧
  (∀ (n : BitVec 2) (r : Word) (rest : List Word),
    decode (irOf n false false 0b0110 :: r :: rest) = .ok (.pop n r)) ∧
  (∀ n : BitVec 2, OperandFetchFaults (irOf n false false 0b0110) 1) ∧
  (∀ n : BitVec 2, OneRegisterFaults (.pop n)) ∧
  (∀ (n : BitVec 2) (i : Fin 8) (s : State), s.reg 7 = 255 →
    exec (.pop n (regWord i)) s = .next (s.faultedWith .stackUnderflow 255)) ∧
  (∀ (n : BitVec 2) (i : Fin 8) (s : State) (v : Word), (s.reg 7).toNat < 255 →
    v = s.stack.read (s.reg 7).toNat →
    exec (.pop n (regWord i)) s = .next
      { s with x := (s.x.set i v).set 7 (BitVec.ofNat 8 ((if i = 7 then v else s.reg 7).toNat + 1))
               pc := BitVec.ofNat 9 (s.pc.toNat + n.toNat + 1) })

/-- R185 -/
def Obligations.PushDecrementsThenStores : Prop :=
  irOf 1 false false 0b0101 = 0x45 ∧
  (∀ (n : BitVec 2) (r : Word) (rest : List Word),
    decode (irOf n false false 0b0101 :: r :: rest) = .ok (.push n r)) ∧
  (∀ n : BitVec 2, OperandFetchFaults (irOf n false false 0b0101) 1) ∧
  (∀ n : BitVec 2, OneRegisterFaults (.push n)) ∧
  (∀ (n : BitVec 2) (i : Fin 8) (s : State), s.reg 7 = 0 →
    exec (.push n (regWord i)) s = .next (s.faultedWith .stackOverflow 0)) ∧
  (∀ (n : BitVec 2) (i : Fin 8) (s : State) (d : Word), (s.reg 7).toNat = d.toNat + 1 →
    exec (.push n (regWord i)) s = .next
      { s with x := s.x.set 7 d, stack := s.stack.write d.toNat (if i = 7 then d else s.reg i)
               pc := BitVec.ofNat 9 (s.pc.toNat + n.toNat + 1) })

/-! ## Frames, over all instructions -/

/-- No instruction writes memory, the OPEN parameters, a port or `ir`: every byte of memory reads as before. -/
def Obligations.InstructionsLeaveMemory : Prop :=
  ∀ (i : Instr) (s t : State), exec i s = .next t →
    (∀ a, t.mem.read a = s.mem.read a) ∧ t.mem = s.mem ∧ t.init = s.init ∧ t.pins = s.pins ∧
    t.loadErr = s.loadErr ∧ t.ir = s.ir

/-- R22: no instruction writes a register but those the table names for it. -/
def Obligations.RegisterFrame : Prop :=
  ∀ (i : Instr) (s t : State), exec i s = .next t → ∀ j : Fin 8, j.val ∉ mayWrite i → t.reg j = s.reg j

/-- R32: `FL` persists until the next CMP: every other instruction leaves it, and so does every step of the
controller at any other word. -/
def Obligations.FlagPersistsUntilCmp : Prop :=
  (∀ (i : Instr) (s t : State), exec i s = .next t → (∀ n a b, i ≠ .cmp n a b) → t.fl = s.fl) ∧
  (∀ s t : State, s.pins.rst = false → step s = .next t →
    ¬(s.runState = .running ∧ classify (s.mem.read s.pc.toNat) = .known .cmp) → t.fl = s.fl)

/-- R56: only PUSH, POP, CALL and RET reach the stack. Of its cells PUSH and CALL write the one at the decremented
`sp`, which then reads as the word they store, and no instruction writes another; with `sp = 0` nothing is written. The
nine other instructions do the same from every contents of the stack. -/
def Obligations.StackFrame : Prop :=
  (∀ (i : Instr) (s t : State), exec i s = .next t →
    ((∀ n r, i ≠ .push n r) → (∀ n af r, i ≠ .call n af r) → ∀ k, t.stack.read k = s.stack.read k) ∧
    (s.reg 7 = 0 → ∀ k, t.stack.read k = s.stack.read k) ∧
    (∀ k, k + 1 ≠ (s.reg 7).toNat → t.stack.read k = s.stack.read k) ∧
    (∀ n (j : Fin 8), i = .push n (regWord j) → s.reg 7 ≠ 0 → Stack.wf s.stack = true →
      t.stack.read ((s.reg 7).toNat - 1) = t.reg j) ∧
    (∀ n af (j : Fin 8), i = .call n af (regWord j) → s.reg 7 ≠ 0 → Stack.wf s.stack = true →
      t.stack.read ((s.reg 7).toNat - 1) = BitVec.ofNat 8 (s.pc.toNat + 2))) ∧
  (∀ (i : Instr) (s t : State) (m : Store), exec i s = .next t → (∀ n r, i ≠ .push n r) →
    (∀ n r, i ≠ .pop n r) → (∀ n af r, i ≠ .call n af r) → (∀ n af, i ≠ .ret n af) →
    exec i { s with stack := m } = .next { t with stack := m })

/-- R37, R38: of the instructions only PRN appends to the output stream, and none to the diagnostic stream; nothing is
ever taken off either. -/
def Obligations.StreamFrame : Prop :=
  ∀ (i : Instr) (s t : State), exec i s = .next t →
    t.diag = s.diag ∧ ((∀ n r, i ≠ .prn n r) → t.out = s.out) ∧ s.out <+: t.out

/-- The run state and the fault record change only by HLT and by a fault. -/
def Obligations.RunStateFrame : Prop :=
  ∀ (i : Instr) (s t : State), exec i s = .next t →
    (t.runState = s.runState ∧ t.fault = s.fault) ∨
    ((∃ n, i = .hlt n) ∧ t.runState = .halted ∧ t.fault = s.fault) ∨
    (t.runState = .faulted ∧ ∃ r : Raise, t = s.enterFault r (some s.ir))

/-! ## Whole-machine rules -/

/-- The invariant is kept by every step, whatever the host drives on the ports. -/
def Obligations.StepKeepsInvariant : Prop :=
  ∀ s t : State, s.Inv → step s = .next t → t.Inv

/-- The reset state meets the invariant, for all OPEN parameters and ports. -/
def Obligations.ResetMeetsInvariant : Prop :=
  ∀ (p : InitParams) (q : Pins), Stack.wf p.stack = true → (State.resetWith p q).Inv

/-- R240: while `rst` is asserted a step enters the reset state, from any state. -/
def Obligations.RstEntersResetState : Prop :=
  ∀ s : State, s.pins.rst = true →
    ∃ t, step s = .next t ∧ t.runState = .idle ∧ (∀ a, t.mem.read a = 0) ∧
      (∀ i : Fin 7, t.reg i.castSucc = s.init.gpr.get i) ∧ t.reg 7 = 255 ∧ t.pc = 0 ∧ t.fl = s.init.fl ∧
      (∀ k, t.stack.read k = s.init.stack.read k) ∧ t.fault = none ∧ t.out = [] ∧ t.diag = []

/-- The OPEN parameters are fixed for the machine (R7), and the ports are the host's (R41): no step, reset included,
changes either. That the state holds them is the model's form (logs 1, 4). -/
def Obligations.ParametersAndPortsNeverChange : Prop :=
  ∀ s t : State, step s = .next t → t.init = s.init ∧ t.pins = s.pins

/-- R42: the values after reset, and after `start`, for all OPEN parameters; memory is then what the host loaded. -/
def Obligations.ResetAndStartValues : Prop :=
  ∀ (p : InitParams) (q : Pins) (m : Store),
    let s := State.resetWith p q
    (s.runState = .idle ∧ ∀ a, s.mem.read a = 0) ∧
    (∀ u : State, u = s ∨ u = ({ s with mem := m }).startRun →
      (∀ i : Fin 7, u.reg i.castSucc = p.gpr.get i) ∧ u.reg 7 = 255 ∧ u.pc = 0 ∧ u.fl = p.fl ∧
      u.fault = none ∧ u.out = [] ∧ u.diag = [] ∧ u.stack = p.stack) ∧
    (({ s with mem := m }).startRun.runState = .running ∧ ({ s with mem := m }).startRun.mem = m)

/-- R242: `start` in `Idle` sets `pc` to 0 and `x[7]` to 255 and enters `Running`, and the words the first step
then fetches begin with the one at 0; in any other run state it has no effect. Where the host writes memory in the same
step, nothing is said of that write here. -/
def Obligations.StartEntersRunning : Prop :=
  (∀ s : State, s.runState = .idle → s.pins.rst = false → s.pins.start = true →
    (∃ t, step s = .next t ∧ t.pc = 0 ∧ t.x = s.x.set 7 255 ∧ t.live ∧
      t.wordsAtPc.head? = some (t.mem.read 0)) ∧
    (s.pins.loadWe = false →
      step s = .next { s with pc := 0, x := s.x.set 7 255, runState := .running })) ∧
  (∀ (s t : State) (b : Bool), s.runState ≠ .idle → s.pins.rst = false → step s = .next t →
    step { s with pins := { s.pins with start := b } } =
      .next { t with pins := { t.pins with start := b } })

/-- R53: a host write lands in `Idle` at an address below 255, and is refused with `load_err` elsewhere; no other step
but reset changes memory. Of `load_err` after a write that lands, and of a write in the step of a `start` in `Idle`,
nothing is said here. -/
def Obligations.HostWritesOnlyInIdle : Prop :=
  (∀ (s : State) (a : Nat) (v : Word), s.runState = .idle → a < 255 →
    ∃ b, s.memWrite a v = { s with mem := s.mem.write a v, loadErr := b }) ∧
  (∀ (s : State) (a : Nat) (v : Word), s.runState ≠ .idle ∨ 255 ≤ a →
    s.memWrite a v = { s with loadErr := true }) ∧
  (∀ s t : State, s.pins.rst = false → step s = .next t →
    (s.runState = .idle ∧ s.pins.start = false ∧ s.pins.loadWe = true ∧ s.pins.loadAddr.toNat < 255 →
      t.mem = s.mem.write s.pins.loadAddr.toNat s.pins.loadData) ∧
    (¬(s.runState = .idle ∧ s.pins.loadWe = true ∧ s.pins.loadAddr.toNat < 255) → t.mem = s.mem) ∧
    (s.pins.loadWe = true → s.runState ≠ .idle ∨ 255 ≤ s.pins.loadAddr.toNat → t.loadErr = true))

/-- The model's choice (log 4, no rule of the spec): a host write in the step of the `start` is served before it, so that
the word is part of the run's program, and at an address out of range it is refused and the run starts all the same. -/
def Obligations.HostWriteBeforeStart : Prop :=
  ∀ s : State, s.runState = .idle → s.pins.rst = false → s.pins.start = true → s.pins.loadWe = true →
    ∃ t, step s = .next t ∧ t.runState = .running ∧
      (s.pins.loadAddr.toNat < 255 → t.mem = s.mem.write s.pins.loadAddr.toNat s.pins.loadData ∧
        t.loadErr = false) ∧
      (255 ≤ s.pins.loadAddr.toNat → t.mem = s.mem ∧ t.loadErr = true)

/-- `load_err` says whether the last host write was refused (R41): a step with a host write sets it to that, and a step
without one leaves it. That a write that lands clears it is the model's reading (log 5), and so is that the write of a
step is served before the instruction (log 6) and before the `start` (log 4) of that step. -/
def Obligations.LoadErrIsTheLastWrite : Prop :=
  ∀ s t : State, s.pins.rst = false → step s = .next t →
    t.loadErr = if s.pins.loadWe then !(decide (s.runState = .idle) && decide (s.pins.loadAddr.toNat < 255))
      else s.loadErr

/-- R243: `Halted` and `Faulted` are left only by reset: without it a step changes nothing but `load_err`. A new run is
reset, load and start. -/
def Obligations.TerminalUntilReset : Prop :=
  ∀ s : State, s.runState = .halted ∨ s.runState = .faulted →
    (s.pins.rst = false → step s = .next { s with loadErr := s.loadErr || s.pins.loadWe }) ∧
    (s.pins.rst = true → ∃ t, step s = .next t ∧ t.runState = .idle ∧
      ∀ ws : List Word, ws.length ≤ 255 → ∃ u v, t.loadProgram ws = some u ∧
        step { u with pins := { Pins.quiet with start := true } } = .next v ∧
        v.runState = .running ∧ v.mem = u.mem ∧ v.pc = 0)

/-- R71: the loader puts word `k` at address `k`, leaves the other cells 0, and cannot load more than 255 words. -/
def Obligations.LoaderPlacesProgram : Prop :=
  ∀ (p : InitParams) (q : Pins) (ws : List Word),
    (255 < ws.length → (State.resetWith p q).loadProgram ws = none) ∧
    (ws.length ≤ 255 → ∃ t, (State.resetWith p q).loadProgram ws = some t ∧ t.runState = .idle ∧
      Memory.wf t.mem = true ∧ ∀ k, t.mem.read k = ws.getD k 0)

/-- R35: the value of `ir` between steps is not architectural: a step from another value of `ir` gives the same next
state but for `ir` itself. -/
def Obligations.IrIsNotArchitectural : Prop :=
  ∀ (s t : State) (w : Word), step s = .next t →
    ∃ w', step { s with ir := w } = .next { t with ir := w' }

/-- A step without `rst` reads neither the two output streams nor the carried field `init`: from other contents of
these three, and the same registers, `FL` and stack, it appends the same and does the same to everything else. A RUN does
depend on the OPEN parameters, through the registers, `FL` and the stack that reset sets to them: a JEQ or JNE before any
CMP reads INIT_FL (R33, R42). -/
def Obligations.StreamsNeverSteerTheRun : Prop :=
  ∀ s t : State, s.pins.rst = false → step s = .next t →
    ∃ o d, t.out = s.out ++ o ∧ t.diag = s.diag ++ d ∧ o.length + d.length ≤ 1 ∧
      ∀ (out : List Word) (diag : List DiagEntry) (p : InitParams),
        step { s with out := out, diag := diag, init := p } =
          .next { t with out := out ++ o, diag := diag ++ d, init := p }

/-- The event ports: a step of a running block has an output event exactly when it is a PRN that does not fault, and a
diagnostic event exactly when it fetches an unknown direct-action word. -/
def Obligations.EventsOfAStep : Prop :=
  ∀ s t : State, s.live → step s = .next t →
    ((outEvent s t).isSome = true ↔
      s.firstFault = none ∧ classify (s.mem.read s.pc.toNat) = .known .prn) ∧
    ((diagEvent s t).isSome = true ↔
      s.pc.toNat < 255 ∧ classify (s.mem.read s.pc.toNat) = .unknownDirect) ∧
    (∀ e, diagEvent s t = some e → e = ⟨s.pc, s.mem.read s.pc.toNat⟩)

/-- A PC-mutating word runs as its canonical word whatever its `n` and `A` (R89): replacing the word at `pc` by another
with `P = 1` and the same code changes nothing but the word itself. -/
def Obligations.ControlAliasesRunAlike : Prop :=
  ∀ (s t : State) (w : Word), s.live → s.pc.toNat < 255 → Memory.wf s.mem = true →
    pField (s.mem.read s.pc.toNat) = true → pField w = true →
    codeField w = codeField (s.mem.read s.pc.toNat) → step s = .next t → t.runState ≠ .faulted →
    step { s with mem := s.mem.write s.pc.toNat w } =
      .next { t with mem := s.mem.write s.pc.toNat w, ir := w }

/-- PUSH and then POP of the same register, R7 included, restores the whole register file (95_test_vectors.md EX5). -/
def Obligations.PushThenPopRestores : Prop :=
  ∀ (s : State) (n m : BitVec 2) (i : Fin 8), Stack.wf s.stack = true → s.reg 7 ≠ 0 →
    ∃ t u, exec (.push n (regWord i)) s = .next t ∧ exec (.pop m (regWord i)) t = .next u ∧ u.x = s.x

/-- R167: CALL and then RET, from any state that has `sp` and the word it points to as CALL left them, returns to the
instruction after the CALL's operand and gives `sp` its value before the CALL. -/
def Obligations.CallThenRetReturns : Prop :=
  ∀ (s : State) (n m : BitVec 2) (af bf : Bool) (i : Fin 8), Stack.wf s.stack = true → s.reg 7 ≠ 0 →
    s.pc.toNat + 1 < 255 →
    ∃ t, exec (.call n af (regWord i)) s = .next t ∧
      ∀ t' : State, t'.reg 7 = t.reg 7 → t'.cell (t.reg 7) = t.cell (t.reg 7) →
        ∃ u, exec (.ret m bf) t' = .next u ∧ u.pc.toNat = s.pc.toNat + 2 ∧ u.reg 7 = s.reg 7

/-- R166: any target is accepted by the branch itself; a target of 255 makes the next fetch raise MemoryFault(255). -/
def Obligations.BranchTo255FaultsAtNextFetch : Prop :=
  ∀ (s : State) (n : BitVec 2) (af : Bool) (i : Fin 8), s.live → s.reg i = 255 →
    decode s.wordsAtPc = .ok (.jmp n af (regWord i)) →
    ∃ t u, step s = .next t ∧ t.runState = .running ∧ t.pc = 255 ∧
      step t = .next u ∧ u.runState = .faulted ∧ u.fault = some ⟨.memoryFault, 255, none, 255⟩
end

