-- ==== Sys2Proof/Laws/Decode.lean ====
section
/-! SUPPORT. The decoder and the encoder: what each field of an encoded word reads as, and how the decoder splits. -/

namespace Sys2Proof

theorem nField_irOf (n : BitVec 2) (a p : Bool) (c : BitVec 4) : nField (irOf n a p c) = n := by
  revert n a p c
  decide

theorem aField_irOf (n : BitVec 2) (a p : Bool) (c : BitVec 4) : aField (irOf n a p c) = a := by
  revert n a p c
  decide

theorem pField_irOf (n : BitVec 2) (a p : Bool) (c : BitVec 4) : pField (irOf n a p c) = p := by
  revert n a p c
  decide

theorem codeField_irOf (n : BitVec 2) (a p : Bool) (c : BitVec 4) : codeField (irOf n a p c) = c := by
  revert n a p c
  decide

/-- The fields determine the word. -/
theorem irOf_fields (ir : Word) : irOf (nField ir) (aField ir) (pField ir) (codeField ir) = ir := by
  revert ir
  decide

theorem classify_irOf (n : BitVec 2) (a p : Bool) (c : BitVec 4) :
    classify (irOf n a p c) =
      if p then classOr .unknownControl (controlOp c)
      else if a then classOr .unknownAlu (aluOp c)
      else classOr .unknownDirect (directOp c) := by
  rw [classify, pField_irOf, aField_irOf, codeField_irOf]

theorem decode_nil : decode [] = .error .noWord := rfl

/-- A word none of whose operand words is missing is decoded by its class. -/
theorem decode_cons {ir : Word} {ops : List Word} (h : (classify ir).operandsRead ≤ ops.length) :
    decode (ir :: ops) = select ir (ops.getD 0 0) (ops.getD 1 0) :=
  if_neg (Nat.not_lt.mpr h)

theorem decode_missing {ir : Word} {ops : List Word} (h : ops.length < (classify ir).operandsRead) :
    decode (ir :: ops) = .error (.missingOperand (ops.length + 1)) :=
  if_pos h

theorem select_known {ir : Word} {op : Op} (u v : Word) (h : classify ir = .known op) :
    select ir u v = .ok (op.build ir u v) := by
  rw [select, h]

/-- A decoded instruction comes from a known word, with its operand words. -/
theorem decode_ok {ws : List Word} {i : Instr} (h : decode ws = .ok i) :
    ∃ ir ops op, ws = ir :: ops ∧ classify ir = .known op ∧ op.operandsRead ≤ ops.length ∧
      i = op.build ir (ops.getD 0 0) (ops.getD 1 0) := by
  cases ws with
  | nil => cases h
  | cons ir ops =>
    rcases Nat.lt_or_ge ops.length (classify ir).operandsRead with hl | hl
    · rw [decode_missing hl] at h
      cases h
    · rw [decode_cons hl] at h
      cases hc : classify ir <;> rw [select, hc] at h <;> cases h
      rw [hc] at hl
      exact ⟨ir, ops, _, rfl, hc, hl, rfl⟩

end Sys2Proof
end

