-- ==== Sys2Proof/Laws/State.lean ====
section
/-! SUPPORT. What each update of the state does to each field: one lemma per field per update, true by rfl. The derived
updates (`setSp`, `incSp`, `skip`, `advance`) are rewritten to the basic ones. -/

namespace Sys2Proof.Machine

@[simp] theorem sp_eq (s : State) : s.sp = s.reg 7 := rfl
@[simp] theorem setSp_eq (s : State) (v : Word) : s.setSp v = s.setReg 7 v := rfl
@[simp] theorem incSp_eq (s : State) : s.incSp = s.setReg 7 (s.reg 7 + 1) := rfl
@[simp] theorem pcPlus_eq (s : State) (k : Nat) : s.pcPlus k = s.pc.toNat + k := rfl
@[simp] theorem skip_eq (s : State) (k : Nat) : s.skip k = s.setPc (BitVec.ofNat 9 (s.pc.toNat + k)) := rfl
@[simp] theorem advance_eq (s : State) (n : BitVec 2) :
    s.advance n = s.setPc (BitVec.ofNat 9 (s.pc.toNat + (n.toNat + 1))) := rfl

/-! ## setReg -/

@[simp] theorem setReg_x (s : State) (i : Fin 8) (v : Word) : (s.setReg i v).x = s.x.set i v := rfl
@[simp] theorem setReg_pc (s : State) (i : Fin 8) (v : Word) : (s.setReg i v).pc = s.pc := rfl
@[simp] theorem setReg_fl (s : State) (i : Fin 8) (v : Word) : (s.setReg i v).fl = s.fl := rfl
@[simp] theorem setReg_runState (s : State) (i : Fin 8) (v : Word) : (s.setReg i v).runState = s.runState := rfl
@[simp] theorem setReg_ir (s : State) (i : Fin 8) (v : Word) : (s.setReg i v).ir = s.ir := rfl
@[simp] theorem setReg_fault (s : State) (i : Fin 8) (v : Word) : (s.setReg i v).fault = s.fault := rfl
@[simp] theorem setReg_out (s : State) (i : Fin 8) (v : Word) : (s.setReg i v).out = s.out := rfl
@[simp] theorem setReg_diag (s : State) (i : Fin 8) (v : Word) : (s.setReg i v).diag = s.diag := rfl
@[simp] theorem setReg_mem (s : State) (i : Fin 8) (v : Word) : (s.setReg i v).mem = s.mem := rfl
@[simp] theorem setReg_stack (s : State) (i : Fin 8) (v : Word) : (s.setReg i v).stack = s.stack := rfl
@[simp] theorem setReg_loadErr (s : State) (i : Fin 8) (v : Word) : (s.setReg i v).loadErr = s.loadErr := rfl
@[simp] theorem setReg_pins (s : State) (i : Fin 8) (v : Word) : (s.setReg i v).pins = s.pins := rfl
@[simp] theorem setReg_init (s : State) (i : Fin 8) (v : Word) : (s.setReg i v).init = s.init := rfl

/-! ## setPc -/

@[simp] theorem setPc_x (s : State) (p : PcWord) : (s.setPc p).x = s.x := rfl
@[simp] theorem setPc_pc (s : State) (p : PcWord) : (s.setPc p).pc = p := rfl
@[simp] theorem setPc_fl (s : State) (p : PcWord) : (s.setPc p).fl = s.fl := rfl
@[simp] theorem setPc_runState (s : State) (p : PcWord) : (s.setPc p).runState = s.runState := rfl
@[simp] theorem setPc_ir (s : State) (p : PcWord) : (s.setPc p).ir = s.ir := rfl
@[simp] theorem setPc_fault (s : State) (p : PcWord) : (s.setPc p).fault = s.fault := rfl
@[simp] theorem setPc_out (s : State) (p : PcWord) : (s.setPc p).out = s.out := rfl
@[simp] theorem setPc_diag (s : State) (p : PcWord) : (s.setPc p).diag = s.diag := rfl
@[simp] theorem setPc_mem (s : State) (p : PcWord) : (s.setPc p).mem = s.mem := rfl
@[simp] theorem setPc_stack (s : State) (p : PcWord) : (s.setPc p).stack = s.stack := rfl
@[simp] theorem setPc_loadErr (s : State) (p : PcWord) : (s.setPc p).loadErr = s.loadErr := rfl
@[simp] theorem setPc_pins (s : State) (p : PcWord) : (s.setPc p).pins = s.pins := rfl
@[simp] theorem setPc_init (s : State) (p : PcWord) : (s.setPc p).init = s.init := rfl

/-! ## setFl -/

@[simp] theorem setFl_x (s : State) (v : Word) : (s.setFl v).x = s.x := rfl
@[simp] theorem setFl_pc (s : State) (v : Word) : (s.setFl v).pc = s.pc := rfl
@[simp] theorem setFl_fl (s : State) (v : Word) : (s.setFl v).fl = v := rfl
@[simp] theorem setFl_runState (s : State) (v : Word) : (s.setFl v).runState = s.runState := rfl
@[simp] theorem setFl_ir (s : State) (v : Word) : (s.setFl v).ir = s.ir := rfl
@[simp] theorem setFl_fault (s : State) (v : Word) : (s.setFl v).fault = s.fault := rfl
@[simp] theorem setFl_out (s : State) (v : Word) : (s.setFl v).out = s.out := rfl
@[simp] theorem setFl_diag (s : State) (v : Word) : (s.setFl v).diag = s.diag := rfl
@[simp] theorem setFl_mem (s : State) (v : Word) : (s.setFl v).mem = s.mem := rfl
@[simp] theorem setFl_stack (s : State) (v : Word) : (s.setFl v).stack = s.stack := rfl
@[simp] theorem setFl_loadErr (s : State) (v : Word) : (s.setFl v).loadErr = s.loadErr := rfl
@[simp] theorem setFl_pins (s : State) (v : Word) : (s.setFl v).pins = s.pins := rfl
@[simp] theorem setFl_init (s : State) (v : Word) : (s.setFl v).init = s.init := rfl

/-! ## setCell -/

@[simp] theorem setCell_x (s : State) (i v : Word) : (s.setCell i v).x = s.x := rfl
@[simp] theorem setCell_pc (s : State) (i v : Word) : (s.setCell i v).pc = s.pc := rfl
@[simp] theorem setCell_fl (s : State) (i v : Word) : (s.setCell i v).fl = s.fl := rfl
@[simp] theorem setCell_runState (s : State) (i v : Word) : (s.setCell i v).runState = s.runState := rfl
@[simp] theorem setCell_ir (s : State) (i v : Word) : (s.setCell i v).ir = s.ir := rfl
@[simp] theorem setCell_fault (s : State) (i v : Word) : (s.setCell i v).fault = s.fault := rfl
@[simp] theorem setCell_out (s : State) (i v : Word) : (s.setCell i v).out = s.out := rfl
@[simp] theorem setCell_diag (s : State) (i v : Word) : (s.setCell i v).diag = s.diag := rfl
@[simp] theorem setCell_mem (s : State) (i v : Word) : (s.setCell i v).mem = s.mem := rfl
@[simp] theorem setCell_stack (s : State) (i v : Word) : (s.setCell i v).stack = s.stack.write i.toNat v := rfl
@[simp] theorem setCell_loadErr (s : State) (i v : Word) : (s.setCell i v).loadErr = s.loadErr := rfl
@[simp] theorem setCell_pins (s : State) (i v : Word) : (s.setCell i v).pins = s.pins := rfl
@[simp] theorem setCell_init (s : State) (i v : Word) : (s.setCell i v).init = s.init := rfl

/-! ## emit -/

@[simp] theorem emit_x (s : State) (v : Word) : (s.emit v).x = s.x := rfl
@[simp] theorem emit_pc (s : State) (v : Word) : (s.emit v).pc = s.pc := rfl
@[simp] theorem emit_fl (s : State) (v : Word) : (s.emit v).fl = s.fl := rfl
@[simp] theorem emit_runState (s : State) (v : Word) : (s.emit v).runState = s.runState := rfl
@[simp] theorem emit_ir (s : State) (v : Word) : (s.emit v).ir = s.ir := rfl
@[simp] theorem emit_fault (s : State) (v : Word) : (s.emit v).fault = s.fault := rfl
@[simp] theorem emit_out (s : State) (v : Word) : (s.emit v).out = s.out ++ [v] := rfl
@[simp] theorem emit_diag (s : State) (v : Word) : (s.emit v).diag = s.diag := rfl
@[simp] theorem emit_mem (s : State) (v : Word) : (s.emit v).mem = s.mem := rfl
@[simp] theorem emit_stack (s : State) (v : Word) : (s.emit v).stack = s.stack := rfl
@[simp] theorem emit_loadErr (s : State) (v : Word) : (s.emit v).loadErr = s.loadErr := rfl
@[simp] theorem emit_pins (s : State) (v : Word) : (s.emit v).pins = s.pins := rfl
@[simp] theorem emit_init (s : State) (v : Word) : (s.emit v).init = s.init := rfl

/-! ## emitDiag -/

@[simp] theorem emitDiag_x (s : State) : (s.emitDiag).x = s.x := rfl
@[simp] theorem emitDiag_pc (s : State) : (s.emitDiag).pc = s.pc := rfl
@[simp] theorem emitDiag_fl (s : State) : (s.emitDiag).fl = s.fl := rfl
@[simp] theorem emitDiag_runState (s : State) : (s.emitDiag).runState = s.runState := rfl
@[simp] theorem emitDiag_ir (s : State) : (s.emitDiag).ir = s.ir := rfl
@[simp] theorem emitDiag_fault (s : State) : (s.emitDiag).fault = s.fault := rfl
@[simp] theorem emitDiag_out (s : State) : (s.emitDiag).out = s.out := rfl
@[simp] theorem emitDiag_diag (s : State) : (s.emitDiag).diag = s.diag ++ [⟨s.pc, s.ir⟩] := rfl
@[simp] theorem emitDiag_mem (s : State) : (s.emitDiag).mem = s.mem := rfl
@[simp] theorem emitDiag_stack (s : State) : (s.emitDiag).stack = s.stack := rfl
@[simp] theorem emitDiag_loadErr (s : State) : (s.emitDiag).loadErr = s.loadErr := rfl
@[simp] theorem emitDiag_pins (s : State) : (s.emitDiag).pins = s.pins := rfl
@[simp] theorem emitDiag_init (s : State) : (s.emitDiag).init = s.init := rfl

/-! ## halt -/

@[simp] theorem halt_x (s : State) : (s.halt).x = s.x := rfl
@[simp] theorem halt_pc (s : State) : (s.halt).pc = s.pc := rfl
@[simp] theorem halt_fl (s : State) : (s.halt).fl = s.fl := rfl
@[simp] theorem halt_runState (s : State) : (s.halt).runState = .halted := rfl
@[simp] theorem halt_ir (s : State) : (s.halt).ir = s.ir := rfl
@[simp] theorem halt_fault (s : State) : (s.halt).fault = s.fault := rfl
@[simp] theorem halt_out (s : State) : (s.halt).out = s.out := rfl
@[simp] theorem halt_diag (s : State) : (s.halt).diag = s.diag := rfl
@[simp] theorem halt_mem (s : State) : (s.halt).mem = s.mem := rfl
@[simp] theorem halt_stack (s : State) : (s.halt).stack = s.stack := rfl
@[simp] theorem halt_loadErr (s : State) : (s.halt).loadErr = s.loadErr := rfl
@[simp] theorem halt_pins (s : State) : (s.halt).pins = s.pins := rfl
@[simp] theorem halt_init (s : State) : (s.halt).init = s.init := rfl

/-! ## enterFault -/

@[simp] theorem enterFault_x (s : State) (r : Raise) (f : Option Word) : (s.enterFault r f).x = s.x := rfl
@[simp] theorem enterFault_pc (s : State) (r : Raise) (f : Option Word) : (s.enterFault r f).pc = s.pc := rfl
@[simp] theorem enterFault_fl (s : State) (r : Raise) (f : Option Word) : (s.enterFault r f).fl = s.fl := rfl
@[simp] theorem enterFault_runState (s : State) (r : Raise) (f : Option Word) : (s.enterFault r f).runState = .faulted := rfl
@[simp] theorem enterFault_ir (s : State) (r : Raise) (f : Option Word) : (s.enterFault r f).ir = s.ir := rfl
@[simp] theorem enterFault_fault (s : State) (r : Raise) (f : Option Word) : (s.enterFault r f).fault = some ⟨r.cause, s.pc, f, r.info⟩ := rfl
@[simp] theorem enterFault_out (s : State) (r : Raise) (f : Option Word) : (s.enterFault r f).out = s.out := rfl
@[simp] theorem enterFault_diag (s : State) (r : Raise) (f : Option Word) : (s.enterFault r f).diag = s.diag := rfl
@[simp] theorem enterFault_mem (s : State) (r : Raise) (f : Option Word) : (s.enterFault r f).mem = s.mem := rfl
@[simp] theorem enterFault_stack (s : State) (r : Raise) (f : Option Word) : (s.enterFault r f).stack = s.stack := rfl
@[simp] theorem enterFault_loadErr (s : State) (r : Raise) (f : Option Word) : (s.enterFault r f).loadErr = s.loadErr := rfl
@[simp] theorem enterFault_pins (s : State) (r : Raise) (f : Option Word) : (s.enterFault r f).pins = s.pins := rfl
@[simp] theorem enterFault_init (s : State) (r : Raise) (f : Option Word) : (s.enterFault r f).init = s.init := rfl

/-! ## latchIr -/

@[simp] theorem latchIr_x (s : State) : (s.latchIr).x = s.x := rfl
@[simp] theorem latchIr_pc (s : State) : (s.latchIr).pc = s.pc := rfl
@[simp] theorem latchIr_fl (s : State) : (s.latchIr).fl = s.fl := rfl
@[simp] theorem latchIr_runState (s : State) : (s.latchIr).runState = s.runState := rfl
@[simp] theorem latchIr_ir (s : State) : (s.latchIr).ir = s.window.headD s.ir := rfl
@[simp] theorem latchIr_fault (s : State) : (s.latchIr).fault = s.fault := rfl
@[simp] theorem latchIr_out (s : State) : (s.latchIr).out = s.out := rfl
@[simp] theorem latchIr_diag (s : State) : (s.latchIr).diag = s.diag := rfl
@[simp] theorem latchIr_mem (s : State) : (s.latchIr).mem = s.mem := rfl
@[simp] theorem latchIr_stack (s : State) : (s.latchIr).stack = s.stack := rfl
@[simp] theorem latchIr_loadErr (s : State) : (s.latchIr).loadErr = s.loadErr := rfl
@[simp] theorem latchIr_pins (s : State) : (s.latchIr).pins = s.pins := rfl
@[simp] theorem latchIr_init (s : State) : (s.latchIr).init = s.init := rfl

/-! ## resetWith -/

@[simp] theorem resetWith_x (p : InitParams) (q : Pins) : (State.resetWith p q).x = resetRegs p := rfl
@[simp] theorem resetWith_pc (p : InitParams) (q : Pins) : (State.resetWith p q).pc = 0 := rfl
@[simp] theorem resetWith_fl (p : InitParams) (q : Pins) : (State.resetWith p q).fl = p.fl := rfl
@[simp] theorem resetWith_runState (p : InitParams) (q : Pins) : (State.resetWith p q).runState = .idle := rfl
@[simp] theorem resetWith_ir (p : InitParams) (q : Pins) : (State.resetWith p q).ir = 0 := rfl
@[simp] theorem resetWith_fault (p : InitParams) (q : Pins) : (State.resetWith p q).fault = none := rfl
@[simp] theorem resetWith_out (p : InitParams) (q : Pins) : (State.resetWith p q).out = [] := rfl
@[simp] theorem resetWith_diag (p : InitParams) (q : Pins) : (State.resetWith p q).diag = [] := rfl
@[simp] theorem resetWith_mem (p : InitParams) (q : Pins) : (State.resetWith p q).mem = [] := rfl
@[simp] theorem resetWith_stack (p : InitParams) (q : Pins) : (State.resetWith p q).stack = p.stack := rfl
@[simp] theorem resetWith_loadErr (p : InitParams) (q : Pins) : (State.resetWith p q).loadErr = false := rfl
@[simp] theorem resetWith_pins (p : InitParams) (q : Pins) : (State.resetWith p q).pins = q := rfl
@[simp] theorem resetWith_init (p : InitParams) (q : Pins) : (State.resetWith p q).init = p := rfl

/-! ## Registers of an updated state -/

@[simp] theorem reg_setReg (s : State) (i j : Fin 8) (v : Word) :
    (s.setReg i v).reg j = if j = i then v else s.reg j := by
  simp only [State.reg, State.setReg, Vector.get_eq_getElem, Vector.getElem_set, Fin.ext_iff, eq_comm]

@[simp] theorem reg_setPc (s : State) (p : PcWord) (i : Fin 8) : (s.setPc p).reg i = s.reg i := rfl
@[simp] theorem reg_setFl (s : State) (v : Word) (i : Fin 8) : (s.setFl v).reg i = s.reg i := rfl
@[simp] theorem reg_setCell (s : State) (k v : Word) (i : Fin 8) : (s.setCell k v).reg i = s.reg i := rfl
@[simp] theorem reg_emit (s : State) (v : Word) (i : Fin 8) : (s.emit v).reg i = s.reg i := rfl
@[simp] theorem reg_emitDiag (s : State) (i : Fin 8) : s.emitDiag.reg i = s.reg i := rfl
@[simp] theorem reg_halt (s : State) (i : Fin 8) : s.halt.reg i = s.reg i := rfl
@[simp] theorem reg_latchIr (s : State) (i : Fin 8) : s.latchIr.reg i = s.reg i := rfl
@[simp] theorem reg_enterFault (s : State) (r : Raise) (f : Option Word) (i : Fin 8) :
    (s.enterFault r f).reg i = s.reg i := rfl

/-- The registers after reset (R42). -/
theorem reg_resetWith (p : InitParams) (q : Pins) (i : Fin 8) :
    (State.resetWith p q).reg i = if h : i.val < 7 then p.gpr[i.val] else 255 := by
  simp only [State.reg, resetWith_x, resetRegs, Vector.get_eq_getElem, Vector.getElem_push]

end Sys2Proof.Machine
end

