-- ==== Sys2Proof/Laws/Store.lean ====
section
/-! SUPPORT. The laws of the arrays of words: a read after a write, that a write keeps the canonical form, and that two
arrays in canonical form which read alike are equal. -/

namespace Sys2Proof.Store

@[simp] theorem read_nil (a : Nat) : Store.read [] a = 0 := rfl

theorem read_cons (b : Nat) (w : Word) (m : Store) (a : Nat) :
    Store.read ((b, w) :: m) a = if a = b then w else Store.read m a := rfl

theorem wfFrom_cons {size lo a : Nat} {v : Word} {m : Store} :
    Store.wfFrom size lo ((a, v) :: m) = true ↔
      lo ≤ a ∧ a < size ∧ v ≠ 0 ∧ Store.wfFrom size (a + 1) m = true := by
  simp [Store.wfFrom, and_assoc]

/-- The canonical form from a higher index is one from a lower index. -/
theorem wfFrom_mono {size lo lo' : Nat} {m : Store} (hle : lo' ≤ lo) (h : Store.wfFrom size lo m = true) :
    Store.wfFrom size lo' m = true := by
  cases m with
  | nil => rfl
  | cons c m =>
    obtain ⟨hlo, rest⟩ := wfFrom_cons.mp h
    exact wfFrom_cons.mpr ⟨hle.trans hlo, rest⟩

/-- Below the lowest listed index every cell reads 0. -/
theorem read_below {size lo a : Nat} {m : Store} (h : Store.wfFrom size lo m = true) (ha : a < lo) :
    Store.read m a = 0 := by
  induction m generalizing lo with
  | nil => rfl
  | cons c m ih =>
    obtain ⟨hlo, -, -, hm⟩ := wfFrom_cons.mp h
    rw [read_cons, if_neg (by omega)]
    exact ih hm (by omega)

/-- At and above the array's size every cell reads 0. -/
theorem read_above {size lo a : Nat} {m : Store} (h : Store.wfFrom size lo m = true) (ha : size ≤ a) :
    Store.read m a = 0 := by
  induction m generalizing lo with
  | nil => rfl
  | cons c m ih =>
    obtain ⟨-, hs, -, hm⟩ := wfFrom_cons.mp h
    rw [read_cons, if_neg (by omega)]
    exact ih hm

theorem list_zero (a : Nat) (m : Store) : Store.list a 0 m = m := if_pos rfl

theorem list_of_ne {a : Nat} {v : Word} {m : Store} (h : v ≠ 0) : Store.list a v m = (a, v) :: m := if_neg h

/-- A listed cell reads as its word, where the cells behind it lie higher. -/
theorem read_list_self {size a : Nat} {v : Word} {m : Store} (hm : Store.wfFrom size (a + 1) m = true) :
    Store.read (Store.list a v m) a = v := by
  by_cases hv : v = 0
  · rw [hv, list_zero, read_below hm (by omega)]
  · rw [list_of_ne hv, read_cons, if_pos rfl]

theorem read_list_ne {a k : Nat} (v : Word) (m : Store) (h : k ≠ a) :
    Store.read (Store.list a v m) k = Store.read m k := by
  by_cases hv : v = 0
  · rw [hv, list_zero]
  · rw [list_of_ne hv, read_cons, if_neg h]

/-- Listing a cell in front of higher cells keeps the canonical form. -/
theorem list_wfFrom {size lo a : Nat} {v : Word} {m : Store} (hlo : lo ≤ a) (ha : a < size)
    (hm : Store.wfFrom size (a + 1) m = true) : Store.wfFrom size lo (Store.list a v m) = true := by
  unfold Store.list
  split
  · exact wfFrom_mono (by omega) hm
  · exact wfFrom_cons.mpr ⟨hlo, ha, ‹_›, hm⟩

theorem write_wfFrom {size lo a : Nat} {v : Word} {m : Store} (h : Store.wfFrom size lo m = true)
    (hlo : lo ≤ a) (ha : a < size) : Store.wfFrom size lo (m.write a v) = true := by
  induction m generalizing lo with
  | nil => exact list_wfFrom hlo ha rfl
  | cons c m ih =>
    obtain ⟨b, w⟩ := c
    obtain ⟨hb, hs, hw, hm⟩ := wfFrom_cons.mp h
    unfold Store.write
    split
    · exact list_wfFrom hlo ha (wfFrom_cons.mpr ⟨by omega, hs, hw, hm⟩)
    · split
      · subst b
        exact list_wfFrom hlo ha hm
      · exact wfFrom_cons.mpr ⟨hb, hs, hw, ih hm (by omega)⟩

/-- A write inside the array keeps the canonical form. -/
theorem write_wf {size a : Nat} {v : Word} {m : Store} (h : Store.wf size m = true) (ha : a < size) :
    Store.wf size (m.write a v) = true :=
  write_wfFrom h (Nat.zero_le a) ha

/-- A write leaves every other cell alone. -/
theorem read_write_ne {a k : Nat} (v : Word) (m : Store) (h : k ≠ a) :
    Store.read (m.write a v) k = Store.read m k := by
  induction m with
  | nil => exact read_list_ne v [] h
  | cons c m ih =>
    obtain ⟨b, w⟩ := c
    unfold Store.write
    split
    · exact read_list_ne v _ h
    · split
      · subst b
        rw [read_list_ne v m h, read_cons, if_neg h]
      · rw [read_cons, read_cons, ih]

theorem read_writeFrom_self {size lo a : Nat} {v : Word} {m : Store} (h : Store.wfFrom size lo m = true) :
    Store.read (m.write a v) a = v := by
  induction m generalizing lo with
  | nil => exact read_list_self (size := size) rfl
  | cons c m ih =>
    obtain ⟨b, w⟩ := c
    obtain ⟨hb, hs, hw, hm⟩ := wfFrom_cons.mp h
    unfold Store.write
    split
    · exact read_list_self (wfFrom_cons.mpr ⟨by omega, hs, hw, hm⟩)
    · split
      · subst b
        exact read_list_self hm
      · rw [read_cons, if_neg ‹_›]
        exact ih hm

/-- A read after a write gives the word written (R51). -/
theorem read_write_self {size a : Nat} {v : Word} {m : Store} (h : Store.wf size m = true) :
    Store.read (m.write a v) a = v :=
  read_writeFrom_self h

theorem extFrom {size lo : Nat} {m m' : Store} (h : Store.wfFrom size lo m = true)
    (h' : Store.wfFrom size lo m' = true) (heq : ∀ a, Store.read m a = Store.read m' a) : m = m' := by
  induction m generalizing lo m' with
  | nil =>
    cases m' with
    | nil => rfl
    | cons c m' =>
      obtain ⟨b, w⟩ := c
      obtain ⟨-, -, hw, -⟩ := wfFrom_cons.mp h'
      have := heq b
      simp [read_cons] at this
      exact absurd this.symm hw
  | cons c m ih =>
    obtain ⟨b, w⟩ := c
    obtain ⟨hb, hbs, hw, hm⟩ := wfFrom_cons.mp h
    cases m' with
    | nil =>
      have := heq b
      simp [read_cons] at this
      exact absurd this hw
    | cons c' m' =>
      obtain ⟨b', w'⟩ := c'
      obtain ⟨hb', hbs', hw', hm'⟩ := wfFrom_cons.mp h'
      have hbb : b = b' := by
        by_contra hne
        rcases Nat.lt_or_gt_of_ne hne with hlt | hlt
        · have := heq b
          rw [read_cons, if_pos rfl, read_cons, if_neg hne, read_below hm' (by omega)] at this
          exact hw this
        · have := heq b'
          rw [read_cons, if_neg (Ne.symm hne), read_cons, if_pos rfl, read_below hm (by omega)] at this
          exact hw' this.symm
      subst hbb
      have hww : w = w' := by simpa [read_cons] using heq b
      subst hww
      congr 1
      refine ih hm hm' fun a => ?_
      by_cases hab : a = b
      · subst hab
        rw [read_below hm (by omega), read_below hm' (by omega)]
      · simpa [read_cons, hab] using heq a

/-- Equal memories are equal data: the canonical form of an array's contents is unique. -/
theorem ext {size : Nat} {m m' : Store} (h : Store.wf size m = true) (h' : Store.wf size m' = true)
    (heq : ∀ a, Store.read m a = Store.read m' a) : m = m' :=
  extFrom h h' heq

end Sys2Proof.Store
end

