-- ==== Sys2Proof/Laws/Ops.lean ====
section
/-! SUPPORT. For each shared operation, once, everything it can do: the spec lemmas that proofs cite instead of
unfolding the operation. -/

namespace Sys2Proof.Machine

/-! ## Operands -/

theorem regIdx_of_lt {w : Word} (h : w.toNat < 8) : regIdx w = .ok ⟨w.toNat, h⟩ := dif_pos h

theorem regIdx_of_ge {w : Word} (h : 8 ≤ w.toNat) : regIdx w = .error ⟨.registerFault, w.setWidth 9⟩ :=
  dif_neg (Nat.not_lt.mpr h)

theorem regIdx_cases (w : Word) :
    (∃ h : w.toNat < 8, regIdx w = .ok ⟨w.toNat, h⟩) ∨
    (8 ≤ w.toNat ∧ regIdx w = .error ⟨.registerFault, w.setWidth 9⟩) := by
  rcases Nat.lt_or_ge w.toNat 8 with h | h
  · exact .inl ⟨h, regIdx_of_lt h⟩
  · exact .inr ⟨h, regIdx_of_ge h⟩

/-! ## The ALU -/

theorem toNat_addWord (u v : Word) : (addWord u v).toNat = (u.toNat + v.toNat) % 256 := by
  simp [addWord]

theorem toNat_mulWord (u v : Word) : (mulWord u v).toNat = (u.toNat * v.toNat) % 256 := by
  simp [mulWord]

theorem compareFlag_cases (u v : Word) :
    (u = v ∧ compareFlag u v = 1) ∨ (v.toNat < u.toNat ∧ compareFlag u v = 2) ∨
    (u.toNat < v.toNat ∧ compareFlag u v = 4) := by
  unfold compareFlag
  split
  · exact .inl ⟨BitVec.eq_of_toNat_eq ‹_›, rfl⟩
  · split
    · exact .inr (.inl ⟨‹_›, rfl⟩)
    · exact .inr (.inr ⟨by omega, rfl⟩)

/-! ## Memory -/

theorem memRead_of_lt {s : State} {a : Nat} (h : a < 255) : memRead s a = .ok (s.mem.read a) := if_pos h

theorem memRead_of_ge {s : State} {a : Nat} (h : 255 ≤ a) :
    memRead s a = .error ⟨.memoryFault, BitVec.ofNat 9 a⟩ := if_neg (Nat.not_lt.mpr h)

theorem memWrite_cases (s : State) (a : Nat) (v : Word) :
    (s.runState = .idle ∧ a < 255 ∧ s.memWrite a v = { s with mem := s.mem.write a v, loadErr := false }) ∨
    (¬(s.runState = .idle ∧ a < 255) ∧ s.memWrite a v = { s with loadErr := true }) := by
  unfold State.memWrite
  split
  · rename_i h
    exact .inl ⟨h.1, h.2, rfl⟩
  · rename_i h
    exact .inr ⟨h, rfl⟩

theorem memWrite_wf {s : State} (a : Nat) (v : Word) (h : Memory.wf s.mem = true) :
    Memory.wf (s.memWrite a v).mem = true := by
  rcases memWrite_cases s a v with ⟨-, ha, e⟩ | ⟨-, e⟩
  · rw [e]
    exact Store.write_wf h ha
  · rw [e]
    exact h

theorem placeWords_wf {m : Store} {a : Nat} {ws : List Word} (h : Memory.wf m = true)
    (ha : a + ws.length ≤ 255) : Memory.wf (placeWords m a ws) = true := by
  induction ws generalizing m a with
  | nil => exact h
  | cons w ws ih =>
    simp only [List.length_cons] at ha
    exact ih (Store.write_wf h (show a < 255 by omega)) (by omega)

/-! ## The stack -/

theorem sub_one_lt_of_ne_zero {v : Word} (h : v ≠ 0) : (v - 1).toNat < 255 := by bv_omega

/-- A push either overflows at `sp = 0` or decrements `sp` and writes the new top (R57, R58). -/
theorem push_cases (f : State → Word) (s : State) :
    (s.reg 7 = 0 ∧ push f s = .error ⟨.stackOverflow, 0⟩) ∨
    (s.reg 7 ≠ 0 ∧ push f s =
      .ok ((s.setReg 7 (s.reg 7 - 1)).setCell (s.reg 7 - 1) (f (s.setReg 7 (s.reg 7 - 1))))) := by
  unfold push
  by_cases h : s.reg 7 = 0
  · exact .inl ⟨h, if_pos h⟩
  · refine .inr ⟨h, ?_⟩
    rw [sp_eq, if_neg h]
    simp

/-- A pop reads the top of the stack, or underflows at `sp = 255` (R57, R59). -/
theorem stackTop_cases (s : State) :
    ((s.reg 7).toNat < 255 ∧ stackTop s = .ok (s.cell (s.reg 7))) ∨
    (s.reg 7 = 255 ∧ stackTop s = .error ⟨.stackUnderflow, 255⟩) := by
  unfold stackTop
  by_cases h : (s.reg 7).toNat < 255
  · exact .inl ⟨h, by simp [h]⟩
  · have e : s.reg 7 = 255 := by bv_omega
    exact .inr ⟨e, by simp [e]⟩

theorem setCell_wf {s : State} {i : Word} (v : Word) (h : Stack.wf s.stack = true) (hi : i.toNat < 255) :
    Stack.wf (s.setCell i v).stack = true :=
  Store.write_wf h hi

/-- A push keeps the canonical form of the stack. -/
theorem push_wf {f : State → Word} {s t : State} (h : push f s = .ok t) (hs : Stack.wf s.stack = true) :
    Stack.wf t.stack = true := by
  rcases push_cases f s with ⟨-, e⟩ | ⟨hne, e⟩
  · rw [e] at h
    cases h
  · rw [e] at h
    cases h
    exact setCell_wf _ hs (sub_one_lt_of_ne_zero hne)

/-! ## The end of an instruction -/

theorem settle_ok (s t : State) : settle s (.ok t) = .next t := rfl

theorem settle_error (s : State) (r : Raise) : settle s (.error r) = .next (s.enterFault r (some s.ir)) := rfl

theorem settle_cases {s t : State} {e : Except Raise State} (h : settle s e = .next t) :
    e = .ok t ∨ ∃ r, e = .error r ∧ t = s.enterFault r (some s.ir) := by
  cases e with
  | ok u =>
    cases h
    exact .inl rfl
  | error r =>
    cases h
    exact .inr ⟨r, rfl, rfl⟩

theorem ok_bind {α β : Type} (v : α) (f : α → Except Raise β) : (Except.ok v >>= f) = f v := rfl

theorem error_bind {α β : Type} (r : Raise) (f : α → Except Raise β) :
    (Except.error r >>= f) = (Except.error r : Except Raise β) := rfl

end Sys2Proof.Machine
end

