-- ==== Sys2Proof/Laws/Step.lean ====
section
/-! SUPPORT. How a step splits, and the words the controller sees. -/

namespace Sys2Proof.Machine

theorem step_rst {s : State} (h : s.pins.rst = true) : step s = .next s.enterReset := if_pos h

theorem step_running {s : State} (h : s.pins.rst = false) (hr : s.runState = .running) :
    step s = controllerStep s.serveLoad := by
  simp [step, h, hr]

theorem step_waiting {s : State} (h : s.pins.rst = false) (hr : s.runState ≠ .running) :
    step s = .next s.waitStep := by
  simp [step, h, hr]

/-- The load port of a block that is not idle only raises `load_err` (R249). -/
theorem serveLoad_not_idle {s : State} (h : s.runState ≠ .idle) :
    s.serveLoad = { s with loadErr := s.loadErr || s.pins.loadWe } := by
  unfold State.serveLoad
  split
  · rename_i hw
    rw [State.memWrite, if_neg (fun hc => h hc.1), hw, Bool.or_true]
  · rename_i hw
    rw [Bool.not_eq_true] at hw
    rw [hw, Bool.or_false]

theorem serveLoad_quiet {s : State} (h : s.pins.loadWe = false) : s.serveLoad = s := by
  simp [State.serveLoad, h]

theorem wordsFrom_of_ge {s : State} {k a : Nat} (h : 255 ≤ a) : wordsFrom s k a = [] := by
  cases k with
  | zero => rfl
  | succ k => rw [wordsFrom, memRead_of_ge h]

theorem wordsFrom_of_lt {s : State} {k a : Nat} (h : a < 255) :
    wordsFrom s (k + 1) a = s.mem.read a :: wordsFrom s k (a + 1) := by
  rw [wordsFrom, memRead_of_lt h]

theorem wordsFrom_length (s : State) (k a : Nat) : (wordsFrom s k a).length = min k (255 - a) := by
  induction k generalizing a with
  | zero => simp [wordsFrom]
  | succ k ih =>
    rcases Nat.lt_or_ge a 255 with h | h
    · rw [wordsFrom_of_lt h, List.length_cons, ih]
      omega
    · rw [wordsFrom_of_ge h, List.length_nil]
      omega

/-- At `pc` of 255 or more there is no word to fetch (R111). -/
theorem window_of_ge {s : State} (h : 255 ≤ s.pc.toNat) : s.window = [] := wordsFrom_of_ge h

/-- Below, the window begins with the instruction word. -/
theorem window_of_lt {s : State} (h : s.pc.toNat < 255) :
    s.window = s.mem.read s.pc.toNat :: wordsFrom s 2 (s.pc.toNat + 1) := wordsFrom_of_lt h

theorem window_length (s : State) : s.window.length = min 3 (255 - s.pc.toNat) := wordsFrom_length s 3 _

/-- The instruction register after the fetch (R111). -/
theorem latchIr_ir_of_lt {s : State} (h : s.pc.toNat < 255) : s.latchIr.ir = s.mem.read s.pc.toNat := by
  rw [latchIr_ir, window_of_lt h, List.headD_cons]

/-- Where all three words fit, the window holds them. -/
theorem window_three {s : State} (h : s.pc.toNat + 2 < 255) :
    s.window = [s.mem.read s.pc.toNat, s.mem.read (s.pc.toNat + 1), s.mem.read (s.pc.toNat + 2)] := by
  rw [window_of_lt (by omega), wordsFrom_of_lt (by omega), wordsFrom_of_lt (by omega)]
  rfl

/-- Words that are an instruction run as it, with `ir` latched. -/
theorem controllerStep_ok {s : State} {i : Instr} (h : decode s.window = .ok i) :
    controllerStep s = exec i s.latchIr := by
  simp [controllerStep, h]

/-- Words that are no instruction have the effect of their rejection. -/
theorem controllerStep_error {s : State} {r : Reject} (h : decode s.window = .error r) :
    controllerStep s = .next (s.latchIr.rejected r) := by
  simp [controllerStep, h]

end Sys2Proof.Machine
end

