-- ==== Sys2Proof/Laws/Exec.lean ====
section
/-! SUPPORT. Once, everything an instruction can do (`exec_cases`) and everything a step of a running block can do
(`live_cases`): the case splits that claims about `exec` and `step` start from. -/

namespace Sys2Proof.Machine

theorem toNat_regWord (i : Fin 8) : (regWord i).toNat = i.val := by
  simp [regWord]
  omega

theorem regIdx_regWord (i : Fin 8) : regIdx (regWord i) = .ok i := by
  have h : (regWord i).toNat < 8 := by
    rw [toNat_regWord]
    exact i.isLt
  rw [regIdx_of_lt h]
  congr 1
  exact Fin.ext (toNat_regWord i)

/-! ## Instructions -/

/-- The state `t` an instruction that does not fault leaves from `s`, and the conditions it does not fault under. -/
def Effect (s t : State) : Instr → Prop
  | .add n a b => ∃ i j, regIdx a = .ok i ∧ regIdx b = .ok j ∧
      t = (s.setReg i (addWord (s.reg i) (s.reg j))).advance n
  | .mul n a b => ∃ i j, regIdx a = .ok i ∧ regIdx b = .ok j ∧
      t = (s.setReg i (mulWord (s.reg i) (s.reg j))).advance n
  | .cmp n a b => ∃ i j, regIdx a = .ok i ∧ regIdx b = .ok j ∧
      t = (s.setFl (compareFlag (s.reg i) (s.reg j))).advance n
  | .call _ _ r => ∃ i u, regIdx r = .ok i ∧ push (fun _ => BitVec.ofNat 8 (s.pcPlus 2)) s = .ok u ∧
      t = u.setPc (u.reg i).toPc
  | .ret _ _ => ∃ v, stackTop s = .ok v ∧ t = (s.setPc v.toPc).incSp
  | .jmp _ _ r => ∃ i, regIdx r = .ok i ∧ t = s.setPc (s.reg i).toPc
  | .jeq _ _ r => ∃ i, regIdx r = .ok i ∧ t = if flE s.fl then s.setPc (s.reg i).toPc else s.skip 2
  | .jne _ _ r => ∃ i, regIdx r = .ok i ∧ t = if flE s.fl then s.skip 2 else s.setPc (s.reg i).toPc
  | .hlt _ => t = s.halt
  | .ldi n r imm => ∃ i, regIdx r = .ok i ∧ t = (s.setReg i imm).advance n
  | .prn n r => ∃ i, regIdx r = .ok i ∧ t = (s.emit (s.reg i)).advance n
  | .pop n r => ∃ i v, regIdx r = .ok i ∧ stackTop s = .ok v ∧ t = (s.setReg i v).incSp.advance n
  | .push n r => ∃ i u, regIdx r = .ok i ∧ push (fun w => w.reg i) s = .ok u ∧ t = u.advance n

/-- An instruction answers either the fault state of a raised fault or the state of its effect. -/
theorem exec_total (i : Instr) (s : State) :
    (∃ r, exec i s = .next (s.enterFault r (some s.ir))) ∨ ∃ t, exec i s = .next t ∧ Effect s t i := by
  have two : ∀ (a b : Word) (f : Fin 8 → Fin 8 → State),
      (∃ r, settle s (regIdx a >>= fun i => regIdx b >>= fun j => .ok (f i j)) =
        .next (s.enterFault r (some s.ir))) ∨
      ∃ t, settle s (regIdx a >>= fun i => regIdx b >>= fun j => .ok (f i j)) = .next t ∧
        ∃ i j, regIdx a = .ok i ∧ regIdx b = .ok j ∧ t = f i j := by
    intro a b f
    rcases regIdx_cases a with ⟨_, ea⟩ | ⟨_, ea⟩ <;> rcases regIdx_cases b with ⟨_, eb⟩ | ⟨_, eb⟩ <;> rw [ea]
    · rw [eb]
      exact .inr ⟨_, rfl, _, _, rfl, rfl, rfl⟩
    · rw [eb]
      exact .inl ⟨_, rfl⟩
    · exact .inl ⟨_, rfl⟩
    · exact .inl ⟨_, rfl⟩
  have one : ∀ (r : Word) (f : Fin 8 → State),
      (∃ r', settle s (regIdx r >>= fun i => .ok (f i)) = .next (s.enterFault r' (some s.ir))) ∨
      ∃ t, settle s (regIdx r >>= fun i => .ok (f i)) = .next t ∧ ∃ i, regIdx r = .ok i ∧ t = f i := by
    intro r f
    rcases regIdx_cases r with ⟨_, e⟩ | ⟨_, e⟩ <;> rw [e]
    · exact .inr ⟨_, rfl, _, rfl, rfl⟩
    · exact .inl ⟨_, rfl⟩
  cases i with
  | add n a b => exact two a b _
  | mul n a b => exact two a b _
  | cmp n a b => exact two a b _
  | call n af r =>
    simp only [exec, execCall, Effect]
    rcases regIdx_cases r with ⟨_, e⟩ | ⟨_, e⟩ <;> rw [e]
    · rw [ok_bind]
      rcases push_cases (fun _ => BitVec.ofNat 8 (s.pcPlus 2)) s with ⟨_, e'⟩ | ⟨_, e'⟩ <;> rw [e']
      · exact .inl ⟨_, rfl⟩
      · exact .inr ⟨_, rfl, _, _, rfl, rfl, rfl⟩
    · exact .inl ⟨_, rfl⟩
  | ret n af =>
    simp only [exec, execRet, Effect]
    rcases stackTop_cases s with ⟨_, e⟩ | ⟨_, e⟩ <;> rw [e]
    · exact .inr ⟨_, rfl, _, rfl, rfl⟩
    · exact .inl ⟨_, rfl⟩
  | jmp n af r => exact one r _
  | jeq n af r => exact one r _
  | jne n af r => exact one r _
  | hlt n => exact .inr ⟨_, rfl, rfl⟩
  | ldi n r imm => exact one r _
  | prn n r => exact one r _
  | pop n r =>
    simp only [exec, execPop, Effect]
    rcases regIdx_cases r with ⟨_, e⟩ | ⟨_, e⟩ <;> rw [e]
    · rw [ok_bind]
      rcases stackTop_cases s with ⟨_, e'⟩ | ⟨_, e'⟩ <;> rw [e']
      · exact .inr ⟨_, rfl, _, _, rfl, rfl, rfl⟩
      · exact .inl ⟨_, rfl⟩
    · exact .inl ⟨_, rfl⟩
  | push n r =>
    simp only [exec, execPush, Effect]
    rcases regIdx_cases r with ⟨_, e⟩ | ⟨_, e⟩ <;> rw [e]
    · rw [ok_bind]
      rcases push_cases (fun w => w.reg ⟨r.toNat, ‹_›⟩) s with ⟨_, e'⟩ | ⟨_, e'⟩ <;> rw [e']
      · exact .inl ⟨_, rfl⟩
      · exact .inr ⟨_, rfl, _, _, rfl, e', rfl⟩
    · exact .inl ⟨_, rfl⟩

/-- The states an instruction can answer. -/
theorem exec_cases {i : Instr} {s t : State} (h : exec i s = .next t) :
    (∃ r, t = s.enterFault r (some s.ir)) ∨ Effect s t i := by
  rcases exec_total i s with ⟨r, e⟩ | ⟨u, e, hu⟩ <;> rw [e] at h <;> cases h
  · exact .inl ⟨r, rfl⟩
  · exact .inr hu

/-! ## Steps of a running block -/

/-- The load port of a running block only raises `load_err` (R249). -/
theorem serveLoad_live {s : State} (h : s.live) :
    s.serveLoad = { s with loadErr := s.loadErr || s.pins.loadWe } :=
  serveLoad_not_idle fun hi => nomatch h.1.symm.trans hi

/-- The words a step sees depend on memory and `pc` alone. -/
theorem wordsFrom_congr {s t : State} (h : t.mem = s.mem) (k a : Nat) : wordsFrom t k a = wordsFrom s k a := by
  induction k generalizing a with
  | zero => rfl
  | succ k ih => rw [wordsFrom, wordsFrom, memRead, memRead, h, ih]

theorem window_congr {s t : State} (h : t.mem = s.mem) (hp : t.pc = s.pc) : t.window = s.window := by
  rw [State.window, State.window, hp, wordsFrom_congr h]

theorem window_serveLoad_live {s : State} (h : s.live) : s.serveLoad.window = s.window := by
  rw [serveLoad_live h]
  exact window_congr rfl rfl

theorem latchIr_serveLoad_live {s : State} (h : s.live) (hp : s.pc.toNat < 255) :
    s.serveLoad.latchIr = s.fetched (s.mem.read s.pc.toNat) := by
  rw [State.latchIr, window_serveLoad_live h, window_of_lt hp, serveLoad_live h]
  rfl

/-- A step of a running block faults at the fetch, or has the effect of words that are no instruction, or runs the
instruction it decodes. -/
theorem live_cases {s : State} (h : s.live) :
    (255 ≤ s.pc.toNat ∧ step s = .next (s.serveLoad.enterFault ⟨.memoryFault, s.pc⟩ none)) ∨
    (s.pc.toNat < 255 ∧ ∃ r, decode s.window = .error r ∧
      step s = .next ((s.fetched (s.mem.read s.pc.toNat)).rejected r)) ∨
    (s.pc.toNat < 255 ∧ ∃ i, decode s.window = .ok i ∧
      step s = exec i (s.fetched (s.mem.read s.pc.toNat))) := by
  rw [step_running h.2 h.1]
  rcases Nat.lt_or_ge s.pc.toNat 255 with hp | hp
  · rw [controllerStep, window_serveLoad_live h, latchIr_serveLoad_live h hp]
    cases hd : decode s.window with
    | error r => exact .inr (.inl ⟨hp, r, rfl, rfl⟩)
    | ok i => exact .inr (.inr ⟨hp, i, rfl, rfl⟩)
  · refine .inl ⟨hp, ?_⟩
    rw [controllerStep, window_serveLoad_live h, window_of_ge hp, decode_nil, State.latchIr,
      window_serveLoad_live h, window_of_ge hp, serveLoad_live h]
    rfl

end Sys2Proof.Machine
end

