-- ==== Sys2Proof/Laws/PerInstr.lean ====
section
/-! SUPPORT. Statements about every instruction as syntax, one lemma per constructor. -/

namespace Sys2Proof.Laws

/-- An instruction's first word carries its `n` and its class, and as many operand words follow as its format has
(R80, R84, R87, R90). -/
def EncodeFields.Statement (i : Instr) : Prop :=
  nField i.irWord = i.n ∧ (∃ op, classify i.irWord = .known op ∧ op.operandsRead = i.operands.length) ∧
    i.operands.length = i.operandCount.toNat

theorem EncodeFields.add (n : BitVec 2) (a b : Word) : EncodeFields.Statement (.add n a b) :=
  ⟨nField_irOf .., ⟨.add, by rw [Instr.irWord, classify_irOf]; rfl, rfl⟩, rfl⟩

theorem EncodeFields.mul (n : BitVec 2) (a b : Word) : EncodeFields.Statement (.mul n a b) :=
  ⟨nField_irOf .., ⟨.mul, by rw [Instr.irWord, classify_irOf]; rfl, rfl⟩, rfl⟩

theorem EncodeFields.cmp (n : BitVec 2) (a b : Word) : EncodeFields.Statement (.cmp n a b) :=
  ⟨nField_irOf .., ⟨.cmp, by rw [Instr.irWord, classify_irOf]; rfl, rfl⟩, rfl⟩

theorem EncodeFields.call (n : BitVec 2) (af : Bool) (r : Word) : EncodeFields.Statement (.call n af r) :=
  ⟨nField_irOf .., ⟨.call, by rw [Instr.irWord, classify_irOf]; rfl, rfl⟩, rfl⟩

theorem EncodeFields.ret (n : BitVec 2) (af : Bool) : EncodeFields.Statement (.ret n af) :=
  ⟨nField_irOf .., ⟨.ret, by rw [Instr.irWord, classify_irOf]; rfl, rfl⟩, rfl⟩

theorem EncodeFields.jmp (n : BitVec 2) (af : Bool) (r : Word) : EncodeFields.Statement (.jmp n af r) :=
  ⟨nField_irOf .., ⟨.jmp, by rw [Instr.irWord, classify_irOf]; rfl, rfl⟩, rfl⟩

theorem EncodeFields.jeq (n : BitVec 2) (af : Bool) (r : Word) : EncodeFields.Statement (.jeq n af r) :=
  ⟨nField_irOf .., ⟨.jeq, by rw [Instr.irWord, classify_irOf]; rfl, rfl⟩, rfl⟩

theorem EncodeFields.jne (n : BitVec 2) (af : Bool) (r : Word) : EncodeFields.Statement (.jne n af r) :=
  ⟨nField_irOf .., ⟨.jne, by rw [Instr.irWord, classify_irOf]; rfl, rfl⟩, rfl⟩

theorem EncodeFields.hlt (n : BitVec 2) : EncodeFields.Statement (.hlt n) :=
  ⟨nField_irOf .., ⟨.hlt, by rw [Instr.irWord, classify_irOf]; rfl, rfl⟩, rfl⟩

theorem EncodeFields.ldi (n : BitVec 2) (r imm : Word) : EncodeFields.Statement (.ldi n r imm) :=
  ⟨nField_irOf .., ⟨.ldi, by rw [Instr.irWord, classify_irOf]; rfl, rfl⟩, rfl⟩

theorem EncodeFields.prn (n : BitVec 2) (r : Word) : EncodeFields.Statement (.prn n r) :=
  ⟨nField_irOf .., ⟨.prn, by rw [Instr.irWord, classify_irOf]; rfl, rfl⟩, rfl⟩

theorem EncodeFields.pop (n : BitVec 2) (r : Word) : EncodeFields.Statement (.pop n r) :=
  ⟨nField_irOf .., ⟨.pop, by rw [Instr.irWord, classify_irOf]; rfl, rfl⟩, rfl⟩

theorem EncodeFields.push (n : BitVec 2) (r : Word) : EncodeFields.Statement (.push n r) :=
  ⟨nField_irOf .., ⟨.push, by rw [Instr.irWord, classify_irOf]; rfl, rfl⟩, rfl⟩

end Sys2Proof.Laws
end

