-- ==== Sys2Proof/Tests/Slice0.lean ====
section
/-! SUPPORT. Tests, each on one word or one step, with the expected results of spec/95_test_vectors.md (the vector is
named) or of the rule named; and, for every statement with hypotheses, a witness that meets them, clause by clause. -/

namespace Sys2Proof.Tests

open Sys2Proof.Machine

/-- A running block at `pc`, with the words there and otherwise as after reset. -/
def running (pc : Nat) (ws : List Word) : State :=
  { State.reset with pc := BitVec.ofNat 9 pc, runState := .running, mem := placeWords [] pc ws }

/-- The next state of an outcome. -/
def next? : Host.Outcome State Fault Refusal → Option State
  | .next t => some t
  | .fault _ | .refused _ => none

/-- The state after one step. -/
def after (s : State) : Option State := next? (step s)

/-- The fault record after one step, if the step faults. -/
def faultAfter (s : State) : Option FaultRecord := (after s).bind State.fault

/-! ## WellFormed: what it accepts, and an ill-formed term for each check -/

theorem test_wellFormed_accepts : Instr.wellFormed (.add 2 7 0) = true ∧ Instr.wellFormed (.ldi 2 7 255) = true ∧
    Instr.wellFormed (.ret 0 false) = true := by decide

/-- R87: ADD's `n` is 2. -/
theorem test_wellFormed_count : Instr.wellFormed (.add 3 0 0) = false := by decide

/-- R87: a PC-mutating word's `A` is 0. -/
theorem test_wellFormed_a : Instr.wellFormed (.call 1 true 0) = false := by decide

/-- R24: there is no register 8; the immediate 8 of an LDI is no register. -/
theorem test_wellFormed_register : Instr.wellFormed (.push 1 8) = false ∧ Instr.wellFormed (.ldi 2 0 8) = true := by
  decide

/-! ## Decoding, bit by bit from R80, R86 and R87 (DEC1a to DEC1m, DEC2) -/

theorem test_decode_alu :
    decode [0b10100000, 1, 2] = .ok (.add 2 1 2) ∧ decode [0b10100010, 1, 2] = .ok (.mul 2 1 2) ∧
    decode [0b10100111, 1, 2] = .ok (.cmp 2 1 2) := ⟨rfl, rfl, rfl⟩

theorem test_decode_control :
    decode [0b01010000, 3] = .ok (.call 1 false 3) ∧ decode [0b00010001] = .ok (.ret 0 false) ∧
    decode [0b01010100, 3] = .ok (.jmp 1 false 3) ∧ decode [0b01010101, 3] = .ok (.jeq 1 false 3) ∧
    decode [0b01010110, 3] = .ok (.jne 1 false 3) := ⟨rfl, rfl, rfl, rfl, rfl⟩

theorem test_decode_direct :
    decode [0b00000001] = .ok (.hlt 0) ∧ decode [0b10000010, 3, 200] = .ok (.ldi 2 3 200) ∧
    decode [0b01000111, 3] = .ok (.prn 1 3) ∧ decode [0b01000110, 3] = .ok (.pop 1 3) ∧
    decode [0b01000101, 3] = .ok (.push 1 3) := ⟨rfl, rfl, rfl, rfl, rfl⟩

/-- DEC2a to DEC2d: an unknown word and aliases. -/
theorem test_decode_alias :
    decode [0b00000000] = .error (.unknownDirect 0) ∧ decode [0b01000001] = .ok (.hlt 1) ∧
    decode [0b11100000, 1, 2] = .ok (.add 3 1 2) ∧ decode [0b01110000, 3] = .ok (.call 1 true 3) :=
  ⟨rfl, rfl, rfl, rfl⟩

/-- R91: words that are no instruction, and words that are missing. -/
theorem test_decode_rejects :
    decode [] = .error .noWord ∧ decode [0x57] = .error (.unknownControl 7) ∧
    decode [0xA1, 9, 10] = .error (.unknownAlu 1) ∧ decode [0xA1, 9] = .error (.missingOperand 2) ∧
    decode [0x82] = .error (.missingOperand 1) := ⟨rfl, rfl, rfl, rfl, rfl⟩

/-- The opcode table's numbering: the second word is bits 15..8, the third bits 23..16. -/
theorem test_decodeTableWord :
    decodeTableWord 24 0x080082 = some (.ldi 2 0 8) ∧ decodeTableWord 8 0xFF11 = some (.ret 0 false) ∧
    decodeTableWord 8 0x50 = some (.call 1 false 0) := ⟨rfl, rfl, rfl⟩

/-! ## Instructions -/

/-- ALU14: ADD into R7 moves the stack pointer. -/
theorem test_add_r7 : (after ((running 0 [0xA0, 7, 0]).setReg 0 3)).map (fun t => (t.reg 7, t.reg 0, t.fl, t.pc)) =
    some (2, 3, 0, 3) := by decide

/-- ALU12: 200 + 100 wraps to 44 (ALU2), and ADD leaves `FL`. -/
theorem test_add_wraps : (after ((((running 0 [0xA0, 0, 1]).setReg 0 200).setReg 1 100).setFl 4)).map
    (fun t => (t.reg 0, t.reg 1, t.fl, t.pc)) = some (44, 100, 4, 3) := by decide

/-- ALU1 -/
theorem test_mul : (after (((running 0 [0xA2, 0, 1]).setReg 0 8).setReg 1 9)).map
    (fun t => (t.reg 0, t.reg 1, t.pc)) = some (72, 9, 3) := by decide

/-- ALU4: 255 squared is 65025, which is 1 modulo 256. -/
theorem test_mul_wraps : (after ((running 0 [0xA2, 0, 0]).setReg 0 255)).map (fun t => t.reg 0) = some 1 := by decide

/-- ALU9: 0 < 255, unsigned; `FL` is written whole. -/
theorem test_cmp_less : (after (((running 0 [0xA7, 0, 1]).setReg 1 255).setFl 0xFF)).map
    (fun t => (t.fl, t.reg 0, t.reg 1, t.pc)) = some (4, 0, 255, 3) := by decide

/-- ALU10, ALU7. -/
theorem test_cmp_greater_equal :
    (after ((running 0 [0xA7, 0, 1]).setReg 0 255)).map (·.fl) = some 2 ∧
    (after (((running 0 [0xA7, 0, 1]).setReg 0 7).setReg 1 7)).map (·.fl) = some 1 := by decide

/-- CF1: the return address and the target. -/
theorem test_call : (after (((running 8 [0x50, 1]).setReg 1 17).setReg 7 254)).map
    (fun t => (t.pc, t.reg 7, t.cell 253)) = some (17, 253, 10) := by decide

/-- CF12: CALL R7 jumps to the decremented stack pointer. -/
theorem test_call_r7 : (after (running 0 [0x50, 7])).map (fun t => (t.pc, t.reg 7, t.cell 254)) =
    some (254, 254, 2) := by decide

/-- CF2, and FLT18: RET at 254 reads no operand. -/
theorem test_ret : (after (((running 254 [0x11]).setReg 7 253).setCell 253 10)).map
    (fun t => (t.pc, t.reg 7, t.cell 253)) = some (10, 254, 10) := by decide

/-- CF3 -/
theorem test_jmp : (after ((running 0 [0x54, 4]).setReg 4 15)).map (·.pc) = some 15 := by decide

/-- CF5, CF11: only bit 0 of `FL` is read. -/
theorem test_jeq : (after (((running 18 [0x55, 3]).setReg 3 27).setFl 1)).map (·.pc) = some 27 ∧
    (after (((running 20 [0x55, 3]).setReg 3 12).setFl 0xFE)).map (·.pc) = some 22 := by decide

/-- CF8, CF10. -/
theorem test_jne : (after (((running 20 [0x56, 3]).setReg 3 12).setFl 2)).map (·.pc) = some 12 ∧
    (after (((running 20 [0x56, 3]).setReg 3 12).setFl 3)).map (·.pc) = some 22 := by decide

/-- DA3 -/
theorem test_hlt : (after (running 11 [0x01])).map (fun t => (t.runState, t.pc)) = some (.halted, 11) := by decide

/-- DA1, and DA15: an alias with `n = 0` advances by 1. -/
theorem test_ldi : (after (running 0 [0x82, 0, 8])).map (fun t => (t.reg 0, t.pc)) = some (8, 3) ∧
    (after (running 0 [0x02, 5, 9])).map (fun t => (t.reg 5, t.pc)) = some (9, 1) := by decide

/-- DA2 -/
theorem test_prn : (after ((running 0 [0x47, 3]).setReg 3 72)).map (fun t => (t.out, t.pc)) = some ([72], 2) := by
  decide

/-- DA7 -/
theorem test_pop : (after (((running 0 [0x46, 0]).setReg 7 254).setCell 254 5)).map
    (fun t => (t.reg 0, t.reg 7, t.pc)) = some (5, 255, 2) := by decide

/-- DA9: POP R7 of 255 leaves 0. -/
theorem test_pop_r7 : (after (((running 0 [0x46, 7]).setReg 7 254).setCell 254 255)).map (fun t => t.reg 7) =
    some 0 := by decide

/-- DA6 -/
theorem test_push : (after ((running 0 [0x45, 0]).setReg 0 5)).map (fun t => (t.reg 7, t.cell 254, t.pc)) =
    some (254, 5, 2) := by decide

/-- DA8: PUSH R7 stores the decremented stack pointer. -/
theorem test_push_r7 : (after (running 0 [0x45, 7])).map (fun t => (t.reg 7, t.cell 254)) = some (254, 254) := by
  decide

/-! ## Diagnostics and faults -/

/-- DA12, DA13: the advance is by the word's `n + 1`. -/
theorem test_diag : (after (running 0 [0xC8])).map (fun t => (t.diag, t.pc)) = some ([⟨0, 0xC8⟩], 4) ∧
    (after (running 0 [0x03, 7])).map (fun t => (t.diag, t.pc)) = some ([⟨0, 0x03⟩], 1) := by decide

/-- FLT1, FLT2, FLT3, FLT4. -/
theorem test_stack_faults :
    faultAfter (running 0 [0x46, 0]) = some ⟨.stackUnderflow, 0, some 0x46, 255⟩ ∧
    faultAfter (running 0 [0x11]) = some ⟨.stackUnderflow, 0, some 0x11, 255⟩ ∧
    faultAfter ((running 3 [0x45, 0]).setReg 7 0) = some ⟨.stackOverflow, 3, some 0x45, 0⟩ ∧
    faultAfter ((running 3 [0x50, 1]).setReg 7 0) = some ⟨.stackOverflow, 3, some 0x50, 0⟩ := by decide

/-- FLT5, FLT7, FLT15, FLT16. -/
theorem test_register_faults :
    faultAfter (running 0 [0x82, 8, 1]) = some ⟨.registerFault, 0, some 0x82, 8⟩ ∧
    faultAfter (running 0 [0xA0, 9, 10]) = some ⟨.registerFault, 0, some 0xA0, 9⟩ ∧
    faultAfter (running 0 [0x55, 9]) = some ⟨.registerFault, 0, some 0x55, 9⟩ ∧
    faultAfter (running 0 [0x46, 8]) = some ⟨.registerFault, 0, some 0x46, 8⟩ := by decide

/-- FLT8, FLT9, FLT17. -/
theorem test_code_faults :
    faultAfter (running 0 [0xA1, 9, 10]) = some ⟨.unsupportedOperation, 0, some 0xA1, 1⟩ ∧
    faultAfter (running 5 [0x57, 0]) = some ⟨.unsupportedControlOp, 5, some 0x57, 7⟩ ∧
    faultAfter (running 254 [0x57]) = some ⟨.unsupportedControlOp, 254, some 0x57, 7⟩ := by decide

/-- FLT10, FLT11, FLT12, FLT13. -/
theorem test_memory_faults :
    faultAfter (running 255 []) = some ⟨.memoryFault, 255, none, 255⟩ ∧
    faultAfter (running 253 [0x82, 0]) = some ⟨.memoryFault, 253, some 0x82, 255⟩ ∧
    faultAfter (running 254 [0x47]) = some ⟨.memoryFault, 254, some 0x47, 255⟩ ∧
    faultAfter (running 253 [0xA1, 9]) = some ⟨.memoryFault, 253, some 0xA1, 255⟩ := by decide

/-! ## Reset, load and start -/

/-- A host write, then a start, from reset (R241, R242); the ports are the host's. -/
theorem test_load_then_start :
    (after { State.reset with pins := ⟨false, false, true, 7, 9⟩ }).map (fun t => (t.mem, t.runState, t.loadErr)) =
      some ([(7, 9)], .idle, false) ∧
    (after { State.reset with pins := ⟨false, true, false, 0, 0⟩ }).map (fun t => (t.runState, t.pc, t.reg 7)) =
      some (.running, 0, 255) := by decide

/-- R53, R249: a write at 255, and a write outside `Idle`, are refused. -/
theorem test_load_refused :
    (after { State.reset with pins := ⟨false, false, true, 255, 9⟩ }).map (fun t => (t.mem, t.loadErr)) =
      some ([], true) ∧
    (after { running 0 [0x01] with pins := ⟨false, false, true, 0, 9⟩ }).map
      (fun t => (t.mem, t.loadErr, t.runState)) = some ([(0, 1)], true, .halted) := by decide

/-- R240: `rst` wins. -/
theorem test_rst : (after { (running 0 [0x82, 0, 8]).setReg 7 3 with pins := ⟨true, true, true, 0, 9⟩ }).map
    (fun t => (t.runState, t.mem, t.reg 7, t.reg 0)) = some (.idle, [], 255, 0) := by decide

/-- The instruction placed by `withFetchWord` runs first after reset; at `pc = 253` it is placed at 0 (log 14). -/
theorem test_withFetchWord :
    (after (State.reset.withFetchWord 24 0x080082)).map (fun t => (t.reg 0, t.pc)) = some (8, 3) ∧
    (after ((running 253 []).withFetchWord 24 0x080082)).map (fun t => (t.reg 0, t.pc)) = some (8, 3) := by decide

/-! ## Witnesses: for each statement with hypotheses, a state and operands that meet them, clause by clause -/

theorem running_live (pc : Nat) (ws : List Word) : (running pc ws).live := ⟨rfl, rfl⟩

theorem witness_SelectionByFlagsThenCode :
    pField 0x50 = true ∧ pField 0xF0 = true ∧ (pField 0xA0 = false ∧ aField 0xA0 = true) ∧
    (pField 0x01 = false ∧ aField 0x01 = false) := by decide

theorem witness_DecodedWordsAreTheEncoding : decode [0xC2, 8, 255, 7] = .ok (.ldi 3 8 255) := rfl

/-- The last place of a word of one, and of three words. -/
theorem witness_StepRunsTheDecodedInstruction :
    ((running 254 [0x01]).live ∧ decode (running 254 [0x01]).wordsAtPc = .ok (.hlt 0)) ∧
    ((running 252 [0xA0, 8, 7]).live ∧ decode (running 252 [0xA0, 8, 7]).wordsAtPc = .ok (.add 2 8 7)) :=
  ⟨⟨running_live _ _, rfl⟩, ⟨running_live _ _, rfl⟩⟩

theorem witness_PlacedWordRunsNext :
    Memory.wf State.reset.mem = true ∧ Memory.wf (running 253 [0, 9]).mem = true ∧
    decodeTableWord 24 0x080082 = some (.ldi 2 0 8) ∧ decodeTableWord 8 0xFFFF82 = some (.ldi 2 0 0) := by decide

theorem witness_NoStepUnlessRunning :
    (State.reset.runState ≠ .running ∧ State.reset.pins.rst = false ∧
      ¬(State.reset.runState = .idle ∧ State.reset.pins.start = true)) ∧
    (running 0 []).halt.runState ≠ .running ∧
    ((running 0 []).enterFault ⟨.memoryFault, 255⟩ none).runState ≠ .running := by decide

theorem witness_FetchReadsOrFaults :
    ((running 254 [9]).live ∧ (running 254 [9]).pc.toNat < 255) ∧
    ((running 255 []).live ∧ 255 ≤ (running 255 []).pc.toNat) :=
  ⟨⟨running_live _ _, by decide⟩, running_live _ _, by decide⟩

/-- MemRead at 254, 255 and the largest address; the fetch at 255; the first operand at 255, and the second. -/
theorem witness_MemoryFaultsAtFetches :
    ((254 : PcWord).toNat < 255 ∧ 255 ≤ (255 : PcWord).toNat ∧ 255 ≤ (511 : PcWord).toNat) ∧
    ((running 255 []).live ∧ 255 ≤ (running 255 []).pc.toNat) ∧
    ((running 254 [0x47]).live ∧ 1 ≤ (classify ((running 254 [0x47]).mem.read 254)).operandsRead ∧
      (running 254 [0x47]).pc.toNat + 1 = 255) ∧
    ((running 253 [0xA1, 0]).live ∧ 2 ≤ (classify ((running 253 [0xA1, 0]).mem.read 253)).operandsRead ∧
      (running 253 [0xA1, 0]).pc.toNat + 2 = 255) :=
  ⟨by decide, ⟨running_live _ _, by decide⟩, ⟨running_live _ _, by decide, by decide⟩,
    running_live _ _, by decide, by decide⟩

theorem witness_UnknownDirectWordIsDiagnosed :
    (running 254 [0xC8]).live ∧ (running 254 [0xC8]).pc.toNat < 255 ∧
    classify ((running 254 [0xC8]).mem.read (running 254 [0xC8]).pc.toNat) = .unknownDirect :=
  ⟨running_live _ _, by decide, by decide⟩

/-- With both operands in memory (252), with one (253) and with none (254). -/
theorem witness_UnknownAluCodeFaults :
    ((running 252 [0xA1, 9, 9]).live ∧ (running 252 [0xA1, 9, 9]).pc.toNat + 2 < 255 ∧
      classify ((running 252 [0xA1, 9, 9]).mem.read (running 252 [0xA1, 9, 9]).pc.toNat) = .unknownAlu) ∧
    ((running 253 [0xA1, 9]).live ∧ 255 ≤ (running 253 [0xA1, 9]).pc.toNat + 2 ∧
      classify ((running 253 [0xA1, 9]).mem.read (running 253 [0xA1, 9]).pc.toNat) = .unknownAlu) ∧
    ((running 254 [0xAF]).live ∧ 255 ≤ (running 254 [0xAF]).pc.toNat + 2 ∧
      classify ((running 254 [0xAF]).mem.read (running 254 [0xAF]).pc.toNat) = .unknownAlu) :=
  ⟨⟨running_live _ _, by decide, by decide⟩, ⟨running_live _ _, by decide, by decide⟩,
    running_live _ _, by decide, by decide⟩

theorem witness_UnknownControlCodeFaults :
    (running 254 [0x57]).live ∧ (running 254 [0x57]).pc.toNat < 255 ∧
    classify ((running 254 [0x57]).mem.read (running 254 [0x57]).pc.toNat) = .unknownControl :=
  ⟨running_live _ _, by decide, by decide⟩

/-- No fault, and each line of the list of R211, with the causes that come later in it present too. -/
theorem witness_FirstFaultIsRaised :
    (running 0 [0xA0, 0, 7]).firstFault = none ∧ (running 254 [0x03]).firstFault = none ∧
    (running 255 []).firstFault = some ⟨.memoryFault, 255⟩ ∧
    (running 254 [0x57]).firstFault = some ⟨.unsupportedControlOp, 7⟩ ∧
    (running 254 [0xA1]).firstFault = some ⟨.memoryFault, 255⟩ ∧
    (running 253 [0xA1, 9]).firstFault = some ⟨.memoryFault, 255⟩ ∧
    (running 0 [0xA1, 9, 10]).firstFault = some ⟨.unsupportedOperation, 1⟩ ∧
    (running 0 [0xA0, 9, 10]).firstFault = some ⟨.registerFault, 9⟩ ∧
    (running 0 [0xA0, 0, 8]).firstFault = some ⟨.registerFault, 8⟩ ∧
    ((running 0 [0x45, 8]).setReg 7 0).firstFault = some ⟨.registerFault, 8⟩ ∧
    ((running 0 [0x45, 0]).setReg 7 0).firstFault = some ⟨.stackOverflow, 0⟩ ∧
    (running 0 [0x11]).firstFault = some ⟨.stackUnderflow, 255⟩ := by decide

theorem witness_FaultsArePrecise :
    (running 0 [0x46, 0]).live ∧ ∃ t, step (running 0 [0x46, 0]) = .next t ∧ t.runState = .faulted :=
  ⟨running_live _ _, _, rfl, rfl⟩

theorem witness_OnlyHltHalts :
    ((running 254 [0x01]).live ∧ ∃ t, step (running 254 [0x01]) = .next t ∧ t.runState = .halted) ∧
    ((running 254 [0x11]).live ∧ ∃ t, step (running 254 [0x11]) = .next t ∧ t.runState ≠ .halted) :=
  ⟨⟨running_live _ _, _, rfl, rfl⟩, running_live _ _, _, rfl, nofun⟩

/-- The two bounds are reached: 258 by the word `0xC8` at 254, 255 by an LDI at 252. -/
theorem witness_NextPcIsBounded :
    ((running 254 [0xC8]).live ∧ ∃ t, step (running 254 [0xC8]) = .next t ∧ t.pc = 258) ∧
    ((running 252 [0x82, 0, 0]).live ∧ classify ((running 252 [0x82, 0, 0]).mem.read 252) = .known .ldi ∧
      (nField ((running 252 [0x82, 0, 0]).mem.read 252)).toNat ≤ Op.ldi.operandsRead ∧
      ∃ t, step (running 252 [0x82, 0, 0]) = .next t ∧ t.pc = 255) :=
  ⟨⟨running_live _ _, _, rfl, rfl⟩, running_live _ _, by decide, by decide, _, rfl, rfl⟩

/-! ### The instructions: the shared fault clauses, then each one's own -/

/-- Two operands at 253 and 254, one operand at 254: for the operand-fetch clause of every instruction that has it. -/
theorem witness_OperandFetchFaults :
    ((running 253 [0xA0, 0]).live ∧ (running 253 [0xA0, 0]).mem.read 253 = irOf 2 true false 0 ∧
      255 ≤ (running 253 [0xA0, 0]).pc.toNat + 2) ∧
    ((running 254 [0x82]).live ∧ (running 254 [0x82]).mem.read 254 = irOf 2 false false 2 ∧
      255 ≤ (running 254 [0x82]).pc.toNat + 2) ∧
    ((running 254 [0x50]).live ∧ (running 254 [0x50]).mem.read 254 = irOf 1 false true 0 ∧
      255 ≤ (running 254 [0x50]).pc.toNat + 1) :=
  ⟨⟨running_live _ _, by decide, by decide⟩, ⟨running_live _ _, by decide, by decide⟩,
    running_live _ _, by decide, by decide⟩

/-- Register words 8 and 255, and a first operand of 7 before them. -/
theorem witness_RegisterFaults :
    8 ≤ (8 : Word).toNat ∧ 8 ≤ (255 : Word).toNat ∧ ((7 : Word).toNat < 8 ∧ 8 ≤ (8 : Word).toNat) := by decide

/-- Equal (0 and 0), greater (255 and 0) and less (0 and 255). -/
theorem witness_CmpSetsExactlyOneFlag :
    let s := ((running 0 []).setReg 0 255).setReg 2 255
    (s.reg 1).toNat = (s.reg 3).toNat ∧ (s.reg 1).toNat < (s.reg 0).toNat ∧
    (s.reg 1).toNat < (s.reg 2).toNat := by decide

/-- CALL at `sp = 0`; at `sp = 1` from the last place (253), and at `sp = 255`. -/
theorem witness_CallPushesReturnAddress :
    (((running 0 []).setReg 7 0).reg 7 = 0) ∧
    ((((running 253 []).setReg 7 1).reg 7).toNat = (0 : Word).toNat + 1 ∧ (running 253 []).pc.toNat + 1 < 255 ∧
      (255 : Word).toNat = (running 253 []).pc.toNat + 2) ∧
    (((running 0 []).reg 7).toNat = (254 : Word).toNat + 1 ∧ (2 : Word).toNat = (running 0 []).pc.toNat + 2) := by
  decide

/-- RET and POP at `sp` 255, 254 and 0. -/
theorem witness_RetPopsIntoPc :
    (running 0 []).reg 7 = 255 ∧ (((running 0 []).setReg 7 254).reg 7).toNat < 255 ∧
    (((running 0 []).setReg 7 0).reg 7).toNat < 255 := by decide

theorem witness_PopLoadsThenIncrements :
    (running 0 []).reg 7 = 255 ∧
    ((((running 0 []).setReg 7 254).setCell 254 255).reg 7).toNat < 255 ∧
    (255 : Word) = (((running 0 []).setReg 7 254).setCell 254 255).stack.read 254 := by decide

/-- PUSH at `sp` 0, 1 and 255. -/
theorem witness_PushDecrementsThenStores :
    ((running 0 []).setReg 7 0).reg 7 = 0 ∧
    (((running 0 []).setReg 7 1).reg 7).toNat = (0 : Word).toNat + 1 ∧
    ((running 0 []).reg 7).toNat = (254 : Word).toNat + 1 := by decide

theorem witness_HltHaltsInPlace :
    ((running 11 []).halt.runState = .halted ∧ (running 11 []).halt.pins.rst = false) ∧
    (∃ t, exec (.hlt 0) (running 11 []) = .next t ∧ (running 11 []).runState ≠ .halted ∧ t.runState = .halted) :=
  ⟨⟨rfl, rfl⟩, _, rfl, nofun, rfl⟩

/-! ### The frames -/

/-- For the frames: each of the 13 instructions answers a next state, none of them a fault. -/
theorem witness_frames :
    let s := (running 0 []).setReg 7 9
    ([.add 2 1 2, .mul 2 1 2, .cmp 2 1 2, .call 1 false 1, .ret 0 false, .jmp 1 false 1, .jeq 1 false 1,
      .jne 1 false 1, .hlt 0, .ldi 2 1 5, .prn 1 1, .pop 1 1, .push 1 1] : List Instr).all
      (fun i => ((next? (exec i s)).any fun t => t.fault.isNone)) = true := by decide

theorem witness_RegisterFrame : (2 : Fin 8).val ∉ mayWrite (.pop 1 1) ∧ (7 : Fin 8).val ∉ mayWrite (.add 2 1 7) ∧
    ∃ t, exec (.add 2 1 7) (running 0 []) = .next t := ⟨by decide, by decide, _, rfl⟩

theorem witness_FlagPersistsUntilCmp :
    ((∃ t, exec (.add 2 0 0) (running 0 []) = .next t) ∧ ∀ n a b, Instr.add 2 0 0 ≠ .cmp n a b) ∧
    ((running 0 [0x01]).pins.rst = false ∧ (∃ t, step (running 0 [0x01]) = .next t) ∧
      ¬((running 0 [0x01]).runState = .running ∧ classify ((running 0 [0x01]).mem.read 0) = .known .cmp)) :=
  ⟨⟨⟨_, rfl⟩, nofun⟩, rfl, ⟨_, rfl⟩, by decide⟩

/-- No push; `sp = 0`; another cell; PUSH and CALL with room, at `sp = 1` and `sp = 255`. -/
theorem witness_StackFrame :
    ((∃ t, exec (.pop 1 1) ((running 0 []).setReg 7 0) = .next t) ∧ (∀ n r, Instr.pop 1 1 ≠ .push n r) ∧
      ∀ n af r, Instr.pop 1 1 ≠ .call n af r) ∧
    ((running 0 []).setReg 7 0).reg 7 = 0 ∧ (253 + 1 ≠ ((running 0 []).reg 7).toNat) ∧
    ((∃ t, exec (.push 1 (regWord 7)) ((running 0 []).setReg 7 1) = .next t) ∧
      ((running 0 []).setReg 7 1).reg 7 ≠ 0 ∧ Stack.wf ((running 0 []).setReg 7 1).stack = true) ∧
    ((∃ t, exec (.call 1 false (regWord 7)) (running 253 []) = .next t) ∧ (running 253 []).reg 7 ≠ 0 ∧
      Stack.wf (running 253 []).stack = true) :=
  ⟨⟨⟨_, rfl⟩, nofun, nofun⟩, by decide, by decide, ⟨⟨_, rfl⟩, by decide, by decide⟩, ⟨_, rfl⟩, by decide, by decide⟩

/-- The nine instructions that do not reach the stack: HLT among them, from another stack. -/
theorem witness_StackFrame_others :
    (∃ t, exec (.hlt 0) (running 0 []) = .next t) ∧ (∀ n r, Instr.hlt 0 ≠ .push n r) ∧
    (∀ n r, Instr.hlt 0 ≠ .pop n r) ∧ (∀ n af r, Instr.hlt 0 ≠ .call n af r) ∧
    (∀ n af, Instr.hlt 0 ≠ .ret n af) := ⟨⟨_, rfl⟩, nofun, nofun, nofun, nofun⟩

theorem witness_StreamFrame : (∃ t, exec (.ldi 2 0 1) (running 0 []) = .next t ∧ ∀ n r, Instr.ldi 2 0 1 ≠ .prn n r) ∧
    ∃ t, exec (.prn 1 0) (running 0 []) = .next t ∧ t.out = [0] := ⟨⟨_, rfl, nofun⟩, _, rfl, rfl⟩

/-- The three cases of the run state's frame. -/
theorem witness_RunStateFrame :
    (∃ t, exec (.jmp 1 false 0) (running 0 []) = .next t ∧ t.runState = .running) ∧
    (∃ t, exec (.hlt 0) (running 0 []) = .next t ∧ t.runState = .halted) ∧
    ∃ t, exec (.jmp 1 false 8) (running 0 []) = .next t ∧ t.runState = .faulted :=
  ⟨⟨_, rfl, rfl⟩, ⟨_, rfl, rfl⟩, _, rfl, rfl⟩

/-! ### The whole-machine rules -/

theorem witness_ResetMeetsInvariant : Stack.wf InitParams.zero.stack = true ∧ Stack.wf [(0, 1), (254, 255)] = true := by
  decide

/-- A running state that meets the invariant and whose step faults, and the reset state. -/
theorem witness_StepKeepsInvariant :
    ((running 0 [0x46, 0]).Inv ∧ ∃ t, step (running 0 [0x46, 0]) = .next t ∧ t.runState = .faulted) ∧
    (State.reset.Inv ∧ ∃ t, step State.reset = .next t) := by
  refine ⟨⟨⟨by decide, by decide, by decide, by decide, .inl rfl, by decide, nofun, nofun, nofun, nofun⟩, _, rfl, rfl⟩,
    ⟨by decide, by decide, by decide, by decide, .inl rfl, by decide, nofun, fun _ => rfl, nofun, nofun⟩, _, rfl⟩

theorem witness_RstEntersResetState :
    ({ running 9 [0x01] with pins := ⟨true, true, true, 0, 9⟩ } : State).pins.rst = true := rfl

/-- `start` in `Idle`, without and with a host write in the same step; and in `Running`, `Halted` and `Faulted`. -/
theorem witness_StartEntersRunning :
    (({ State.reset with pins := ⟨false, true, false, 0, 0⟩ } : State).runState = .idle ∧
      ({ State.reset with pins := ⟨false, true, false, 0, 0⟩ } : State).pins.loadWe = false) ∧
    (({ State.reset with pins := ⟨false, true, true, 0, 1⟩ } : State).runState = .idle ∧
      ({ State.reset with pins := ⟨false, true, true, 0, 1⟩ } : State).pins.start = true) ∧
    ((running 0 [0x01]).runState ≠ .idle ∧ ∃ t, step (running 0 [0x01]) = .next t) ∧
    ((running 0 []).halt.runState ≠ .idle ∧ ∃ t, step (running 0 []).halt = .next t) :=
  ⟨⟨rfl, rfl⟩, ⟨rfl, rfl⟩, ⟨nofun, _, rfl⟩, nofun, _, rfl⟩

/-- A host write at 254 and at 255 in `Idle`, without a `start`, in `Running` and in `Halted`. -/
theorem witness_HostWritesOnlyInIdle :
    (State.reset.runState = .idle ∧ 254 < 255) ∧ ((running 0 []).runState ≠ .idle ∧ (running 0 []).halt.runState ≠ .idle) ∧
    (∃ t, step { State.reset with pins := ⟨false, false, true, 254, 1⟩ } = .next t ∧ t.mem = [(254, 1)]) ∧
    (∃ t, step { State.reset with pins := ⟨false, false, true, 255, 1⟩ } = .next t ∧ t.mem = [] ∧ t.loadErr = true) ∧
    ∃ t, step { running 0 [0x01] with pins := ⟨false, false, true, 0, 1⟩ } = .next t ∧ t.loadErr = true :=
  ⟨⟨rfl, by decide⟩, ⟨nofun, nofun⟩, ⟨_, rfl, rfl⟩, ⟨_, rfl, rfl, rfl⟩, _, rfl, rfl⟩

/-- A host write at 254, and at 255, in the step of the `start`. -/
theorem witness_HostWriteBeforeStart :
    let s (a : Word) : State := { State.reset with pins := ⟨false, true, true, a, 1⟩ }
    ((s 254).runState = .idle ∧ (s 254).pins.rst = false ∧ (s 254).pins.start = true ∧ (s 254).pins.loadWe = true ∧
      (s 254).pins.loadAddr.toNat < 255) ∧
    ((s 255).runState = .idle ∧ 255 ≤ (s 255).pins.loadAddr.toNat) := by decide

/-- A write that lands after one that was refused, and a step without a write. -/
theorem witness_LoadErrIsTheLastWrite :
    (∃ t, step { State.reset with pins := ⟨false, false, true, 0, 1⟩, loadErr := true } = .next t ∧ t.loadErr = false) ∧
    ∃ t, step { State.reset with loadErr := true } = .next t ∧ t.loadErr = true := ⟨⟨_, rfl, rfl⟩, _, rfl, rfl⟩

theorem witness_TerminalUntilReset :
    ((running 0 []).halt.runState = .halted ∧ (running 0 []).halt.pins.rst = false) ∧
    (((running 255 []).enterFault ⟨.memoryFault, 255⟩ none).runState = .faulted ∧
      ({ (running 0 []).halt with pins := ⟨true, false, false, 0, 0⟩ } : State).pins.rst = true) ∧
    ([0x01] : List Word).length ≤ 255 := ⟨⟨rfl, rfl⟩, ⟨rfl, rfl⟩, by decide⟩

/-- A program of 255 words is loaded, one of 256 is not. -/
theorem witness_LoaderPlacesProgram :
    (List.replicate 255 (1 : Word)).length ≤ 255 ∧ 255 < (List.replicate 256 (1 : Word)).length := by
  simp only [List.length_replicate]
  omega

theorem witness_IrIsNotArchitectural : ∃ t, step (running 0 [0xA0, 0, 0]) = .next t := ⟨_, rfl⟩

theorem witness_StreamsNeverSteerTheRun :
    (running 0 [0x47, 0]).pins.rst = false ∧ ∃ t, step (running 0 [0x47, 0]) = .next t ∧ t.out = [0] := ⟨rfl, _, rfl, rfl⟩

/-- A step with an output event, one with a diagnostic event, one with neither. -/
theorem witness_EventsOfAStep :
    ((running 0 [0x47, 0]).live ∧ ∃ t, step (running 0 [0x47, 0]) = .next t ∧ (outEvent (running 0 [0x47, 0]) t).isSome) ∧
    ((running 254 [0x00]).live ∧ ∃ t, step (running 254 [0x00]) = .next t ∧
      diagEvent (running 254 [0x00]) t = some ⟨254, 0⟩) ∧
    ((running 0 [0x01]).live ∧ ∃ t, step (running 0 [0x01]) = .next t) :=
  ⟨⟨running_live _ _, _, rfl, rfl⟩, ⟨running_live _ _, _, rfl, rfl⟩, running_live _ _, _, rfl⟩

/-- JMP's word `0x54` and its alias `0xF4`, at the last place. -/
theorem witness_ControlAliasesRunAlike :
    let s := running 253 [0x54, 0]
    s.live ∧ s.pc.toNat < 255 ∧ Memory.wf s.mem = true ∧ pField (s.mem.read s.pc.toNat) = true ∧ pField 0xF4 = true ∧
    codeField 0xF4 = codeField (s.mem.read s.pc.toNat) ∧ ∃ t, step s = .next t ∧ t.runState ≠ .faulted :=
  ⟨running_live _ _, by decide, by decide, by decide, by decide, by decide, _, rfl, nofun⟩

theorem witness_PushThenPopRestores :
    Stack.wf ((running 0 []).setReg 7 1).stack = true ∧ ((running 0 []).setReg 7 1).reg 7 ≠ 0 := by decide

theorem witness_CallThenRetReturns :
    Stack.wf (running 253 []).stack = true ∧ (running 253 []).reg 7 ≠ 0 ∧ (running 253 []).pc.toNat + 1 < 255 ∧
    ∃ t t' : State, exec (.call 1 false (regWord 0)) (running 253 []) = .next t ∧ t'.reg 7 = t.reg 7 ∧
      t'.cell (t.reg 7) = t.cell (t.reg 7) := ⟨by decide, by decide, by decide, _, _, rfl, rfl, rfl⟩

theorem witness_BranchTo255FaultsAtNextFetch :
    let s := (running 253 [0x54, 0]).setReg 0 255
    s.live ∧ s.reg 0 = 255 ∧ decode s.wordsAtPc = .ok (.jmp 1 false (regWord 0)) := ⟨⟨rfl, rfl⟩, rfl, rfl⟩

end Sys2Proof.Tests
end

/-! # The OPEN parameters and the input ports (R7, R41, R42, logs 1 and 4)

The state carries both only so that a step can read them. Each operation a step is made of keeps them, from the push
up to the step itself. -/

namespace Sys2Proof.Machine

/-- `t` has the OPEN parameters and the input ports of `s`. -/
def State.SameEnv (s t : State) : Prop := t.init = s.init ∧ t.pins = s.pins

theorem State.SameEnv.trans {s t u : State} (hst : s.SameEnv t) (htu : t.SameEnv u) : s.SameEnv u :=
  ⟨htu.1.trans hst.1, htu.2.trans hst.2⟩

theorem memWrite_sameEnv (s : State) (a : Nat) (v : Word) : s.SameEnv (s.memWrite a v) := by
  rcases memWrite_cases s a v with ⟨-, -, e⟩ | ⟨-, e⟩ <;> rw [e] <;> exact ⟨rfl, rfl⟩

theorem push_sameEnv {f : State → Word} {s t : State} (h : push f s = .ok t) : s.SameEnv t := by
  rcases push_cases f s with ⟨-, e⟩ | ⟨-, e⟩ <;> rw [e] at h <;> cases h
  exact ⟨rfl, rfl⟩

/-- The effect of an instruction: CALL and PUSH go through the push, JEQ and JNE through one of two targets, and every
other one writes other fields directly. -/
theorem Effect.sameEnv {i : Instr} {s t : State} (h : Effect s t i) : s.SameEnv t := by
  cases i with
  | add | mul | cmp | pop =>
    obtain ⟨_, _, -, -, rfl⟩ := h
    exact ⟨rfl, rfl⟩
  | call | push =>
    obtain ⟨_, u, -, hu, rfl⟩ := h
    exact (push_sameEnv hu).trans ⟨rfl, rfl⟩
  | ret | jmp | ldi | prn =>
    obtain ⟨_, -, rfl⟩ := h
    exact ⟨rfl, rfl⟩
  | jeq | jne =>
    obtain ⟨_, -, rfl⟩ := h
    split <;> exact ⟨rfl, rfl⟩
  | hlt =>
    obtain rfl := h
    exact ⟨rfl, rfl⟩

theorem exec_sameEnv {i : Instr} {s t : State} (h : exec i s = .next t) : s.SameEnv t := by
  rcases exec_cases h with ⟨_, rfl⟩ | he
  · exact ⟨rfl, rfl⟩
  · exact he.sameEnv

theorem rejected_sameEnv (s : State) (r : Reject) : s.SameEnv (s.rejected r) := by
  cases r <;> exact ⟨rfl, rfl⟩

theorem controllerStep_sameEnv {s t : State} (h : controllerStep s = .next t) : s.SameEnv t := by
  have latch : s.SameEnv s.latchIr := ⟨rfl, rfl⟩
  cases hd : decode s.window with
  | ok i =>
    rw [controllerStep_ok hd] at h
    exact latch.trans (exec_sameEnv h)
  | error r =>
    rw [controllerStep_error hd] at h
    cases h
    exact latch.trans (rejected_sameEnv _ r)

theorem serveLoad_sameEnv (s : State) : s.SameEnv s.serveLoad := by
  unfold State.serveLoad
  split
  · exact memWrite_sameEnv ..
  · exact ⟨rfl, rfl⟩

theorem serveStart_sameEnv (s : State) : s.SameEnv s.serveStart := by
  unfold State.serveStart
  split <;> exact ⟨rfl, rfl⟩

theorem waitStep_sameEnv (s : State) : s.SameEnv s.waitStep := by
  unfold State.waitStep
  split
  · exact (serveLoad_sameEnv s).trans (serveStart_sameEnv _)
  all_goals exact serveLoad_sameEnv s

/-- A step is a reset, a step of the controller after the load port, or a step in which only the ports act. -/
theorem step_sameEnv {s t : State} (h : step s = .next t) : s.SameEnv t := by
  cases hrst : s.pins.rst with
  | true =>
    rw [step_rst hrst] at h
    cases h
    exact ⟨rfl, rfl⟩
  | false =>
    by_cases hrun : s.runState = .running
    · rw [step_running hrst hrun] at h
      exact (serveLoad_sameEnv s).trans (controllerStep_sameEnv h)
    · rw [step_waiting hrst hrun] at h
      cases h
      exact waitStep_sameEnv s

/-- Settles O43: every part of a step keeps the OPEN parameters and the input ports. -/
theorem parametersAndPortsNeverChange : Obligations.ParametersAndPortsNeverChange :=
  fun _ _ => step_sameEnv

end Sys2Proof.Machine

/-! # What an instruction can raise and what it can write (R22, R24, R57, R209)

`exec_outcome` refines `exec_cases`: it says which faults an instruction can raise. `Effect.writes` says in one of seven
forms what an instruction that does not fault writes; every frame of the instructions follows from it. -/

namespace Sys2Proof.Machine

/-! ## Faults of an instruction -/

/-- The faults an instruction can raise in `s`: a register word of 8 or more (R24), a push on a full stack, a pop from an
empty one (R57). -/
inductive CanRaise (s : State) : Raise → Prop
  | register (w : Word) (h : 8 ≤ w.toNat) : CanRaise s ⟨.registerFault, w.setWidth 9⟩
  | overflow (h : s.reg 7 = 0) : CanRaise s ⟨.stackOverflow, 0⟩
  | underflow (h : s.reg 7 = 255) : CanRaise s ⟨.stackUnderflow, 255⟩

/-- A computation that raises only faults of `E`, and answers only values of `P`. -/
def Answers {α : Type} (E : Raise → Prop) (P : α → Prop) : Except Raise α → Prop
  | .ok v => P v
  | .error r => E r

theorem Answers.bind {α β : Type} {E : Raise → Prop} {P : α → Prop} {Q : β → Prop} {e : Except Raise α}
    {f : α → Except Raise β} (he : Answers E P e) (hf : ∀ v, P v → Answers E Q (f v)) : Answers E Q (e >>= f) := by
  cases e with
  | ok v => exact hf v he
  | error r => exact he

theorem settle_answers {E : Raise → Prop} {P : State → Prop} {s t : State} {e : Except Raise State}
    (he : Answers E P e) (h : settle s e = .next t) : (∃ r, E r ∧ t = s.enterFault r (some s.ir)) ∨ P t := by
  rcases settle_cases h with rfl | ⟨r, rfl, rfl⟩
  · exact .inr he
  · exact .inl ⟨r, he, rfl⟩

theorem regIdx_answers (s : State) (w : Word) : Answers (CanRaise s) (fun i => regIdx w = .ok i) (regIdx w) := by
  rcases regIdx_cases w with ⟨_, e⟩ | ⟨hw, e⟩ <;> rw [e]
  · exact rfl
  · exact .register w hw

theorem push_answers (f : State → Word) (s : State) :
    Answers (CanRaise s) (fun u => push f s = .ok u) (push f s) := by
  rcases push_cases f s with ⟨h, e⟩ | ⟨_, e⟩ <;> rw [e]
  · exact .overflow h
  · exact rfl

theorem stackTop_answers (s : State) : Answers (CanRaise s) (fun v => stackTop s = .ok v) (stackTop s) := by
  rcases stackTop_cases s with ⟨_, e⟩ | ⟨h, e⟩ <;> rw [e]
  · exact rfl
  · exact .underflow h

/-- Each instruction checks its operands in order, then the stack, and then has its effect. -/
theorem exec_answers (i : Instr) (s : State) :
    ∃ e, exec i s = settle s e ∧ Answers (CanRaise s) (fun t => Effect s t i) e := by
  cases i with
  | add n a b | mul n a b | cmp n a b =>
    exact ⟨_, rfl, (regIdx_answers s a).bind fun i hi => (regIdx_answers s b).bind fun j hj => ⟨i, j, hi, hj, rfl⟩⟩
  | call n af r | push n r =>
    exact ⟨_, rfl, (regIdx_answers s r).bind fun i hi => (push_answers _ s).bind fun u hu => ⟨i, u, hi, hu, rfl⟩⟩
  | pop n r =>
    exact ⟨_, rfl, (regIdx_answers s r).bind fun i hi => (stackTop_answers s).bind fun v hv => ⟨i, v, hi, hv, rfl⟩⟩
  | ret n af => exact ⟨_, rfl, (stackTop_answers s).bind fun v hv => ⟨v, hv, rfl⟩⟩
  | jmp n af r | jeq n af r | jne n af r | ldi n r imm | prn n r =>
    exact ⟨_, rfl, (regIdx_answers s r).bind fun i hi => ⟨i, hi, rfl⟩⟩
  | hlt n => exact ⟨.ok s.halt, rfl, rfl⟩

/-- An instruction enters a fault it can raise, from the state before it, or has its effect. -/
theorem exec_outcome {i : Instr} {s t : State} (h : exec i s = .next t) :
    (∃ r, CanRaise s r ∧ t = s.enterFault r (some s.ir)) ∨ Effect s t i := by
  obtain ⟨e, hexec, he⟩ := exec_answers i s
  exact settle_answers he (hexec ▸ h)

/-! ## Writes of an instruction -/

/-- The forms of the state after an instruction that does not fault, with the registers of R22's table. -/
inductive Writes (s : State) : Instr → State → Prop
  | target {i : Instr} (p : PcWord) : Writes s i (s.setPc p)
  | register {i : Instr} {j : Fin 8} (v : Word) (p : PcWord) (hj : j.val ∈ mayWrite i) :
      Writes s i ((s.setReg j v).setPc p)
  | popped {i : Instr} {j : Fin 8} (v w : Word) (p : PcWord) (hj : j.val ∈ mayWrite i) (h7 : 7 ∈ mayWrite i) :
      Writes s i (((s.setReg j v).setReg 7 w).setPc p)
  | pushed {i : Instr} {d : Word} (v : Word) (p : PcWord) (hd : d.toNat < 255) (h7 : 7 ∈ mayWrite i) :
      Writes s i (((s.setReg 7 d).setCell d v).setPc p)
  | flag {n : BitVec 2} {a b : Word} (u v : Word) (p : PcWord) :
      Writes s (.cmp n a b) ((s.setFl (compareFlag u v)).setPc p)
  | output {n : BitVec 2} {r : Word} (v : Word) (p : PcWord) : Writes s (.prn n r) ((s.emit v).setPc p)
  | halt {n : BitVec 2} : Writes s (.hlt n) s.halt

theorem val_of_regIdx_ok {w : Word} {i : Fin 8} (h : regIdx w = .ok i) : i.val = w.toNat := by
  rcases regIdx_cases w with ⟨_, e⟩ | ⟨_, e⟩ <;> rw [e] at h <;> cases h
  rfl

/-- The push of PUSH and CALL, and a new `pc` after it. -/
theorem writes_of_push {f : State → Word} {s u : State} {i : Instr} (p : PcWord) (h : push f s = .ok u)
    (h7 : 7 ∈ mayWrite i) : Writes s i (u.setPc p) := by
  rcases push_cases f s with ⟨-, e⟩ | ⟨hne, e⟩ <;> rw [e] at h <;> cases h
  exact .pushed _ p (sub_one_lt_of_ne_zero hne) h7

theorem Effect.writes {i : Instr} {s t : State} (h : Effect s t i) : Writes s i t := by
  cases i with
  | add n a b | mul n a b =>
    obtain ⟨i, j, hi, -, rfl⟩ := h
    exact .register _ _ (by simp [mayWrite, val_of_regIdx_ok hi])
  | cmp n a b =>
    obtain ⟨i, j, -, -, rfl⟩ := h
    exact .flag _ _ _
  | ldi n r imm =>
    obtain ⟨i, hi, rfl⟩ := h
    exact .register _ _ (by simp [mayWrite, val_of_regIdx_ok hi])
  | pop n r =>
    obtain ⟨i, v, hi, -, rfl⟩ := h
    exact .popped _ _ _ (by simp [mayWrite, val_of_regIdx_ok hi]) (by simp [mayWrite])
  | ret n af =>
    obtain ⟨v, -, rfl⟩ := h
    exact .register (j := 7) _ _ (by simp [mayWrite])
  | call n af r | push n r =>
    obtain ⟨i, u, -, hu, rfl⟩ := h
    exact writes_of_push _ hu (by simp [mayWrite])
  | jmp n af r =>
    obtain ⟨i, -, rfl⟩ := h
    exact .target _
  | jeq n af r | jne n af r =>
    obtain ⟨i, -, rfl⟩ := h
    split <;> exact .target _
  | prn n r =>
    obtain ⟨i, -, rfl⟩ := h
    exact .output _ _
  | hlt n =>
    obtain rfl := h
    exact .halt

/-! ## Frames of an instruction -/

/-- What no instruction that does not fault writes (R12, R36, R38, R53). -/
structure State.SameOutside (s t : State) : Prop where
  mem : t.mem = s.mem
  init : t.init = s.init
  loadErr : t.loadErr = s.loadErr
  diag : t.diag = s.diag
  fault : t.fault = s.fault

theorem Writes.sameOutside {i : Instr} {s t : State} (h : Writes s i t) : s.SameOutside t := by
  cases h <;> exact ⟨rfl, rfl, rfl, rfl, rfl⟩

theorem Writes.reg {i : Instr} {s t : State} (h : Writes s i t) {j : Fin 8} (hj : j.val ∉ mayWrite i) :
    t.reg j = s.reg j := by
  have ne {k : Fin 8} (hk : k.val ∈ mayWrite i) : j ≠ k := fun e => hj (e ▸ hk)
  cases h with
  | register v p hk => simp [ne hk]
  | popped v w p hk h7 => simp [ne hk, ne (k := 7) h7]
  | pushed v p hd h7 => simp [ne (k := 7) h7]
  | target | flag | output | halt => rfl

theorem Writes.fl {i : Instr} {s t : State} (h : Writes s i t) (hi : ∀ n a b, i ≠ .cmp n a b) : t.fl = s.fl := by
  cases h with
  | flag => exact absurd rfl (hi _ _ _)
  | target | register | popped | pushed | output | halt => rfl

theorem Writes.out {i : Instr} {s t : State} (h : Writes s i t) :
    t.out = s.out ∨ (∃ n r, i = .prn n r) ∧ ∃ v, t.out = s.out ++ [v] := by
  cases h with
  | output v => exact .inr ⟨⟨_, _, rfl⟩, v, rfl⟩
  | target | register | popped | pushed | flag | halt => exact .inl rfl

theorem Writes.runState {i : Instr} {s t : State} (h : Writes s i t) :
    t.runState = s.runState ∨ (∃ n, i = .hlt n) ∧ t = s.halt := by
  cases h with
  | halt => exact .inr ⟨⟨_, rfl⟩, rfl⟩
  | target | register | popped | pushed | flag | output => exact .inl rfl

theorem Writes.stack_wf {i : Instr} {s t : State} (h : Writes s i t) (hs : Stack.wf s.stack = true) :
    Stack.wf t.stack = true := by
  cases h with
  | pushed v p hd => exact setCell_wf (s := s.setReg 7 _) v hs hd
  | target | register | popped | flag | output | halt => exact hs

theorem Writes.flForm {i : Instr} {s t : State} (h : Writes s i t) :
    t.fl = s.fl ∨ t.fl = 1 ∨ t.fl = 2 ∨ t.fl = 4 := by
  cases h with
  | flag u v => exact .inr ((compareFlag_cases u v).imp And.right (.imp And.right And.right))
  | target | register | popped | pushed | output | halt => exact .inl rfl

/-- Settles O35: a fault writes no register, and `Writes.reg` is the frame of an effect. -/
theorem registerFrame : Obligations.RegisterFrame := by
  intro i s t h j hj
  rcases exec_outcome h with ⟨r, -, rfl⟩ | he
  · rfl
  · exact he.writes.reg hj

/-- Settles O38: a fault writes no stream, and of the effects only PRN's appends. -/
theorem streamFrame : Obligations.StreamFrame := by
  intro i s t h
  rcases exec_outcome h with ⟨r, -, rfl⟩ | he
  · exact ⟨rfl, fun _ => rfl, [], List.append_nil _⟩
  · refine ⟨he.writes.sameOutside.diag, ?_⟩
    rcases he.writes.out with ho | ⟨⟨n, r, rfl⟩, v, ho⟩
    · exact ⟨fun _ => ho, [], (List.append_nil _).trans ho.symm⟩
    · exact ⟨fun hi => absurd rfl (hi n r), [v], ho.symm⟩

/-- Settles O39: an effect keeps the record and, but for HLT's, the run state; a fault enters from the state before. -/
theorem runStateFrame : Obligations.RunStateFrame := by
  intro i s t h
  rcases exec_outcome h with ⟨r, -, rfl⟩ | he
  · exact .inr (.inr ⟨rfl, r, rfl⟩)
  · have hfault := he.writes.sameOutside.fault
    rcases he.writes.runState with hr | ⟨hi, rfl⟩
    · exact .inl ⟨hr, hfault⟩
    · exact .inr (.inl ⟨hi, rfl, hfault⟩)

end Sys2Proof.Machine

/-! # A step in which only the ports act (R53, R110, R242, R249)

A block that is not running serves the load port and, in `Idle`, `start` after it (log 4). -/

namespace Sys2Proof.Machine

/-! ## The load port and `start` -/

/-- The load port writes memory and `load_err` alone. -/
theorem serveLoad_eq (s : State) :
    s.serveLoad = { s with mem := s.serveLoad.mem, loadErr := s.serveLoad.loadErr } := by
  unfold State.serveLoad
  split
  · rcases memWrite_cases s s.pins.loadAddr.toNat s.pins.loadData with ⟨-, -, e⟩ | ⟨-, e⟩ <;> rw [e]
  · rfl

/-- A step of a block that is not running is the load port's, or with `start` in `Idle` the load port's and then the
start. -/
theorem waitStep_cases (s : State) :
    (¬(s.runState = .idle ∧ s.pins.start = true) ∧ s.waitStep = s.serveLoad) ∨
    (s.runState = .idle ∧ s.pins.start = true ∧ s.waitStep = s.serveLoad.startRun) := by
  have hpins : s.serveLoad.pins = s.pins := (serveLoad_sameEnv s).2
  cases hr : s.runState with
  | running | halted | faulted => simp [State.waitStep, hr]
  | idle => cases hst : s.pins.start <;> simp [State.waitStep, State.serveStart, hr, hpins, hst]

theorem waitStep_fl (s : State) : s.waitStep.fl = s.fl := by
  have hload : s.serveLoad.fl = s.fl := by rw [serveLoad_eq]
  rcases waitStep_cases s with ⟨-, e⟩ | ⟨-, -, e⟩ <;> rw [e]
  · exact hload
  · exact hload

theorem waitStep_loadErr (s : State) : s.waitStep.loadErr = s.serveLoad.loadErr := by
  rcases waitStep_cases s with ⟨-, e⟩ | ⟨-, -, e⟩ <;> rw [e]
  rfl

/-- The memory and `load_err` a host write leaves (R53; that it clears `load_err` where it lands is log 5). -/
theorem serveLoad_write {s : State} (hw : s.pins.loadWe = true) :
    (s.runState = .idle ∧ s.pins.loadAddr.toNat < 255 ∧
      s.serveLoad.mem = s.mem.write s.pins.loadAddr.toNat s.pins.loadData ∧ s.serveLoad.loadErr = false) ∨
    (¬(s.runState = .idle ∧ s.pins.loadAddr.toNat < 255) ∧ s.serveLoad.mem = s.mem ∧ s.serveLoad.loadErr = true) := by
  rw [State.serveLoad, if_pos hw]
  rcases memWrite_cases s s.pins.loadAddr.toNat s.pins.loadData with ⟨hi, ha, e⟩ | ⟨hn, e⟩ <;> rw [e]
  · exact .inl ⟨hi, ha, rfl, rfl⟩
  · exact .inr ⟨hn, rfl, rfl⟩

theorem serveLoad_loadErr (s : State) :
    s.serveLoad.loadErr =
      if s.pins.loadWe then !(decide (s.runState = .idle) && decide (s.pins.loadAddr.toNat < 255)) else s.loadErr := by
  cases hw : s.pins.loadWe with
  | false => rw [serveLoad_quiet hw]; rfl
  | true =>
    rcases serveLoad_write hw with ⟨hi, ha, -, e⟩ | ⟨hn, -, e⟩
    · simp [e, hi, ha]
    · rw [e, if_pos rfl, ← Bool.decide_and, decide_eq_false hn, Bool.not_false]

/-- Settles O47: the load port acts before the start, which changes neither memory nor `load_err`. -/
theorem hostWriteBeforeStart : Obligations.HostWriteBeforeStart := by
  intro s hi hrst hst hw
  have hwait : s.runState ≠ .running := fun h => nomatch hi.symm.trans h
  rcases waitStep_cases s with ⟨hn, -⟩ | ⟨-, -, hstart⟩
  · exact absurd ⟨hi, hst⟩ hn
  refine ⟨s.serveLoad.startRun, by rw [step_waiting hrst hwait, hstart], rfl, ?_⟩
  rcases serveLoad_write hw with ⟨-, ha, hm, he⟩ | ⟨hn, hm, he⟩
  · exact ⟨fun _ => ⟨hm, he⟩, fun h => by omega⟩
  · exact ⟨fun h => absurd ⟨hi, h⟩ hn, fun _ => ⟨hm, he⟩⟩

end Sys2Proof.Machine

/-! # A step of a running block (R111, R117, R144, R165, R202)

`step_live_cases` says once everything a step of a running block can do, with the fault record it leaves and the
instruction it runs. -/

namespace Sys2Proof

/-! ## The instruction a word selects -/

theorem operandsRead_le_two (c : WordClass) : c.operandsRead ≤ 2 := by
  cases c with
  | known op => cases op <;> decide
  | unknownControl | unknownAlu | unknownDirect => decide

/-- An instruction depends only on the operand words it reads. -/
theorem build_congr {op : Op} {ir u u' v v' : Word} (hu : 1 ≤ op.operandsRead → u = u')
    (hv : 2 ≤ op.operandsRead → v = v') : op.build ir u v = op.build ir u' v' := by
  cases op with
  | ret | hlt => rfl
  | call | jmp | jeq | jne | prn | pop | push => rw [hu (by decide)]; rfl
  | add | mul | cmp | ldi => rw [hu (by decide), hv (by decide)]

theorem build_n (op : Op) (ir u v : Word) : (op.build ir u v).n = nField ir := by
  cases op <;> rfl

theorem build_operandCount (op : Op) (ir u v : Word) : (op.build ir u v).operandCount.toNat = op.operandsRead := by
  cases op <;> rfl

/-- The name of an instruction. -/
def Instr.op : Instr → Op
  | .add _ _ _ => .add
  | .mul _ _ _ => .mul
  | .cmp _ _ _ => .cmp
  | .call _ _ _ => .call
  | .ret _ _ => .ret
  | .jmp _ _ _ => .jmp
  | .jeq _ _ _ => .jeq
  | .jne _ _ _ => .jne
  | .hlt _ => .hlt
  | .ldi _ _ _ => .ldi
  | .prn _ _ => .prn
  | .pop _ _ => .pop
  | .push _ _ => .push

theorem build_op (op : Op) (ir u v : Word) : (op.build ir u v).op = op := by
  cases op <;> rfl

/-- An instruction is built from its own name alone. -/
theorem op_of_build_eq {op : Op} {ir u v : Word} {i : Instr} (h : op.build ir u v = i) : op = i.op :=
  h ▸ (build_op op ir u v).symm

end Sys2Proof

namespace Sys2Proof.Machine

/-! ## The words the decoder sees -/

/-- Why the words at `pc` are no instruction: an operand word lies at the first address outside memory, or the code is
unknown (R211). -/
theorem decode_window_error {s : State} {r : Reject} (hp : s.pc.toNat < 255) (h : decode s.window = .error r) :
    (∃ k, r = .missingOperand k ∧ 1 ≤ k ∧ k ≤ (classify (s.mem.read s.pc.toNat)).operandsRead ∧
      s.pc.toNat + k = 255) ∨
    (classify (s.mem.read s.pc.toNat) = .unknownControl ∧
      r = .unknownControl (codeField (s.mem.read s.pc.toNat))) ∨
    (classify (s.mem.read s.pc.toNat) = .unknownAlu ∧ r = .unknownAlu (codeField (s.mem.read s.pc.toNat))) ∨
    (classify (s.mem.read s.pc.toNat) = .unknownDirect ∧ r = .unknownDirect (nField (s.mem.read s.pc.toNat))) := by
  have hlen := wordsFrom_length s 2 (s.pc.toNat + 1)
  have htwo := operandsRead_le_two (classify (s.mem.read s.pc.toNat))
  rw [window_of_lt hp] at h
  rcases Nat.lt_or_ge (wordsFrom s 2 (s.pc.toNat + 1)).length (classify (s.mem.read s.pc.toNat)).operandsRead
    with hl | hl
  · rw [decode_missing hl] at h
    cases h
    exact .inl ⟨_, rfl, by omega, by omega, by omega⟩
  · rw [decode_cons hl, select] at h
    cases hc : classify (s.mem.read s.pc.toNat) with
    | known op => rw [hc] at h; cases h
    | unknownControl | unknownAlu | unknownDirect =>
      rw [hc] at h
      cases h
      simp

/-- The word `k` words after `a`, where memory holds it. -/
theorem wordsFrom_getD {s : State} {n a k : Nat} (hk : k < n) (ha : a + k < 255) :
    (wordsFrom s n a).getD k 0 = s.mem.read (a + k) := by
  induction n generalizing a k with
  | zero => omega
  | succ n ih =>
    rw [wordsFrom_of_lt (by omega)]
    cases k with
    | zero => rfl
    | succ k => rw [List.getD_cons_succ, ih (by omega) (by omega), Nat.add_right_comm, Nat.add_assoc]

/-- A known word whose operand words are in memory is decoded with them. -/
theorem decode_window_known {s : State} {op : Op} (hc : classify (s.mem.read s.pc.toNat) = .known op)
    (hk : s.pc.toNat + op.operandsRead < 255) :
    decode s.window = .ok
      (op.build (s.mem.read s.pc.toNat) (s.mem.read (s.pc.toNat + 1)) (s.mem.read (s.pc.toNat + 2))) := by
  have htwo : op.operandsRead ≤ 2 := operandsRead_le_two (.known op)
  have hlen : (classify (s.mem.read s.pc.toNat)).operandsRead ≤ (wordsFrom s 2 (s.pc.toNat + 1)).length := by
    rw [hc, wordsFrom_length, WordClass.operandsRead]
    omega
  rw [window_of_lt (by omega), decode_cons hlen, select_known _ _ hc]
  exact congrArg _ (build_congr (fun _ => wordsFrom_getD (by decide) (by omega))
    (fun _ => wordsFrom_getD (by decide) (by omega)))

theorem decode_window_ok {s : State} {i : Instr} (hp : s.pc.toNat < 255) (h : decode s.window = .ok i) :
    ∃ op, classify (s.mem.read s.pc.toNat) = .known op ∧ s.pc.toNat + op.operandsRead < 255 ∧
      i = op.build (s.mem.read s.pc.toNat) (s.mem.read (s.pc.toNat + 1)) (s.mem.read (s.pc.toNat + 2)) := by
  obtain ⟨ir, ops, op, hw, hc, hl, -⟩ := decode_ok h
  have hlen := wordsFrom_length s 2 (s.pc.toNat + 1)
  rw [window_of_lt hp] at hw
  cases hw
  have hk : s.pc.toNat + op.operandsRead < 255 := by omega
  rw [decode_window_known hc hk] at h
  exact ⟨op, hc, hk, by cases h; rfl⟩

/-- A running block at a known word whose operands are in memory runs its instruction (R119). -/
theorem step_live_known {s : State} {op : Op} (h : s.live) (hc : classify (s.mem.read s.pc.toNat) = .known op)
    (hk : s.pc.toNat + op.operandsRead < 255) :
    step s = exec
      (op.build (s.mem.read s.pc.toNat) (s.mem.read (s.pc.toNat + 1)) (s.mem.read (s.pc.toNat + 2)))
      (s.fetched (s.mem.read s.pc.toNat)) := by
  have hp : s.pc.toNat < 255 := Nat.lt_of_le_of_lt (Nat.le_add_right ..) hk
  rw [step_running h.2 h.1, controllerStep_ok ((window_serveLoad_live h).symm ▸ decode_window_known hc hk),
    latchIr_serveLoad_live h hp]

/-! ## The fault record of a step -/

/-- The record of a fault raised after the fetch of the word at `pc` (R209). -/
def Raise.record (r : Raise) (s : State) : FaultRecord := ⟨r.cause, s.pc, some (s.mem.read s.pc.toNat), r.info⟩

theorem record_fir (r : Raise) {s : State} (hp : s.pc.toNat < 255) :
    ∀ w, (r.record s).fir = some w → s.pc.toNat < 255 ∧ s.mem.read s.pc.toNat = w :=
  fun _ hw => ⟨hp, Option.some.inj hw⟩

/-- A fault of the running instruction is explained by its operand word or by the stack pointer (R24, R57). -/
theorem CanRaise.explains {s : State} {w : Word} {r : Raise} (hp : s.pc.toNat < 255)
    (h : CanRaise (s.fetched w) r) : (r.record s).explains s := by
  refine ⟨rfl, record_fir r hp, ?_⟩
  cases h with
  | register v hv =>
    have hinfo : (v.setWidth 9).toNat = v.toNat := BitVec.toNat_setWidth_of_le (by decide)
    exact ⟨rfl, hv.trans hinfo.ge, hinfo.le.trans (Nat.le_of_lt_succ v.isLt)⟩
  | overflow h7 => exact ⟨rfl, rfl, h7⟩
  | underflow h7 => exact ⟨rfl, rfl, h7⟩

/-- What a step of a running block that fetches `w` can do. -/
inductive LiveStep (s : State) (w : Word) : State → Prop
  /-- There is no word to fetch (R111). -/
  | noWord (hp : 255 ≤ s.pc.toNat) : LiveStep s w ((s.fetched s.ir).enterFault ⟨.memoryFault, s.pc⟩ none)
  /-- The instruction, or words that are none but for the next case's, raise a fault (R209). -/
  | faulted (r : Raise) (hp : s.pc.toNat < 255) (hc : classify w ≠ .unknownDirect) (hr : (r.record s).explains s) :
      LiveStep s w ((s.fetched w).enterFault r (some w))
  /-- The word is unknown direct-action (R117). -/
  | diagnosed (hp : s.pc.toNat < 255) (hc : classify w = .unknownDirect) :
      LiveStep s w ((s.fetched w).emitDiag.advance (nField w))
  /-- The instruction of the words at `pc` has its effect (R119). -/
  | ran (op : Op) (t : State) (hc : classify w = .known op) (hk : s.pc.toNat + op.operandsRead < 255)
      (he : Effect (s.fetched w) t (op.build w (s.mem.read (s.pc.toNat + 1)) (s.mem.read (s.pc.toNat + 2)))) :
      LiveStep s w t

/-- What the controller does with words that are no instruction. -/
theorem liveStep_rejected {s : State} {r : Reject} (hp : s.pc.toNat < 255) (h : decode s.window = .error r) :
    LiveStep s (s.mem.read s.pc.toNat) ((s.fetched (s.mem.read s.pc.toNat)).rejected r) := by
  rcases decode_window_error hp h with ⟨k, rfl, h1, hk, h255⟩ | ⟨hc, rfl⟩ | ⟨hc, rfl⟩ | ⟨hc, rfl⟩
  · have h2 := operandsRead_le_two (classify (s.mem.read s.pc.toNat))
    have hinfo : (BitVec.ofNat 9 ((s.fetched (s.mem.read s.pc.toNat)).pcPlus k)).toNat = 255 := by
      simp [State.fetched, h255]
    have hplace : 255 = s.pc.toNat + 1 ∨ 255 = s.pc.toNat + 2 := by omega
    have hc : classify (s.mem.read s.pc.toNat) ≠ .unknownDirect := fun hc => by
      rw [hc] at hk
      exact absurd (h1.trans hk) (by decide)
    exact .faulted _ hp hc ⟨rfl, record_fir _ hp, hinfo.ge, hinfo.le.trans (by decide),
      .inr ⟨rfl, hplace.imp hinfo.trans hinfo.trans⟩⟩
  · exact .faulted _ hp (hc ▸ nofun) ⟨rfl, record_fir _ hp, _, rfl, hc, rfl⟩
  · exact .faulted _ hp (hc ▸ nofun) ⟨rfl, record_fir _ hp, _, rfl, hc, rfl⟩
  · exact .diagnosed hp hc

theorem step_live_cases {s t : State} (h : s.live) (ht : step s = .next t) :
    LiveStep s (s.mem.read s.pc.toNat) t := by
  rcases live_cases h with ⟨hp, e⟩ | ⟨hp, r, hd, e⟩ | ⟨hp, i, hd, e⟩ <;> rw [e] at ht
  · rw [serveLoad_live h] at ht
    cases ht
    exact .noWord hp
  · cases ht
    exact liveStep_rejected hp hd
  · obtain ⟨op, hc, hk, rfl⟩ := decode_window_ok hp hd
    rcases exec_outcome ht with ⟨r, hr, rfl⟩ | he
    · exact .faulted r hp (hc ▸ nofun) (hr.explains hp)
    · exact .ran op t hc hk he

end Sys2Proof.Machine

/-! # The next `pc`, `FL` and `load_err` of a step (R27, R32, R41, R122) -/

namespace Sys2Proof.Machine

/-! ## The program counter -/

theorem toPc_le (w : Word) : w.toPc.toNat ≤ 255 :=
  (BitVec.toNat_setWidth_of_le (by decide)).le.trans (Nat.le_of_lt_succ w.isLt)

theorem skip_pc_le (s : State) (k : Nat) : (s.skip k).pc.toNat ≤ s.pc.toNat + k :=
  (BitVec.toNat_ofNat ..).le.trans (Nat.mod_le ..)

theorem push_pc {f : State → Word} {s u : State} (h : push f s = .ok u) : u.pc = s.pc := by
  rcases push_cases f s with ⟨-, e⟩ | ⟨-, e⟩ <;> rw [e] at h <;> cases h
  rfl

/-- After an instruction whose operands are in memory `pc` is a branch target, at most the place after its operands, or
the place `n + 1` words on (R115, R116). -/
theorem Effect.pc_le {i : Instr} {s t : State} (h : Effect s t i)
    (hk : s.pc.toNat + i.operandCount.toNat < 255) :
    t.pc.toNat ≤ 255 ∨ t.pc.toNat ≤ s.pc.toNat + (i.n.toNat + 1) := by
  cases i with
  | add n a b | mul n a b | cmp n a b | pop n r =>
    obtain ⟨_, _, -, -, rfl⟩ := h
    exact .inr (skip_pc_le _ _)
  | ldi n r imm | prn n r =>
    obtain ⟨_, -, rfl⟩ := h
    exact .inr (skip_pc_le _ _)
  | push n r =>
    obtain ⟨_, u, -, hu, rfl⟩ := h
    have hpc : u.pc = s.pc := push_pc hu
    exact .inr (hpc ▸ skip_pc_le u _)
  | call n af r =>
    obtain ⟨_, _, -, -, rfl⟩ := h
    exact .inl (toPc_le _)
  | ret n af | jmp n af r =>
    obtain ⟨_, -, rfl⟩ := h
    exact .inl (toPc_le _)
  | jeq n af r =>
    obtain ⟨_, -, rfl⟩ := h
    split
    · exact .inl (toPc_le _)
    · exact .inl ((skip_pc_le s 2).trans hk)
  | jne n af r =>
    obtain ⟨_, -, rfl⟩ := h
    split
    · exact .inl ((skip_pc_le s 2).trans hk)
    · exact .inl (toPc_le _)
  | hlt n =>
    obtain rfl := h
    exact .inl (Nat.le_of_lt (Nat.lt_of_le_of_lt (Nat.le_add_right ..) hk))

/-- A known word whose operands are in memory leaves `pc` at most at 255 or `n + 1` words on. -/
theorem build_pc_le {s t : State} {op : Op} {w u v : Word} (he : Effect (s.fetched w) t (op.build w u v))
    (hk : s.pc.toNat + op.operandsRead < 255) :
    t.pc.toNat ≤ 255 ∨ t.pc.toNat ≤ s.pc.toNat + ((nField w).toNat + 1) := by
  have h := he.pc_le (by rwa [build_operandCount])
  rwa [build_n] at h

/-- The `pc` of a word whose fetch does not fault moves to at most 258 (R27). -/
theorem LiveStep.pc_le {s t : State} {w : Word} (h : LiveStep s w t) (hp : s.pc.toNat < 255) :
    t.pc.toNat ≤ 258 := by
  have hn := (nField w).isLt
  cases h with
  | noWord h255 => omega
  | faulted r _ _ hr => exact (Nat.le_of_lt hp).trans (by decide)
  | diagnosed _ hc =>
    have hskip : ((s.fetched w).emitDiag.advance (nField w)).pc.toNat ≤ s.pc.toNat + ((nField w).toNat + 1) :=
      skip_pc_le _ _
    omega
  | ran op t hc hk he => rcases build_pc_le he hk with h | h <;> omega

/-- Settles O20: a fault keeps `pc`, a known word's operands lie in memory, and `n` is at most 3. -/
theorem nextPcIsBounded : Obligations.NextPcIsBounded := by
  intro s t h hp ht
  have hs := step_live_cases h ht
  refine ⟨hs.pc_le hp, fun op hop hn => ?_⟩
  cases hs with
  | noWord h255 => omega
  | faulted r _ _ hr => exact Nat.le_of_lt hp
  | diagnosed _ hc => cases hop.symm.trans hc
  | ran op' t hc hk he =>
    cases hop.symm.trans hc
    rcases build_pc_le he hk with h | h <;> omega

/-! ## `FL` -/

/-- Settles O36: of the instructions only CMP writes `FL`, and neither do the ports, a fault or a diagnostic. -/
theorem flagPersistsUntilCmp : Obligations.FlagPersistsUntilCmp := by
  refine ⟨fun i s t h hi => ?_, fun s t hrst ht hcmp => ?_⟩
  · rcases exec_outcome h with ⟨r, -, rfl⟩ | he
    · rfl
    · exact he.writes.fl hi
  · by_cases hrun : s.runState = .running
    · cases step_live_cases ⟨hrun, hrst⟩ ht with
      | noWord | faulted | diagnosed => rfl
      | ran op t hc hk he =>
        exact he.writes.fl fun n a b hi => hcmp ⟨hrun, hc.trans (congrArg _ (op_of_build_eq hi))⟩
    · rw [step_waiting hrst hrun] at ht
      cases ht
      exact waitStep_fl s

/-! ## `load_err` -/

/-- A running block refuses the host write of its step, and no instruction touches `load_err` (R249, log 6). -/
theorem LiveStep.loadErr {s t : State} {w : Word} (h : LiveStep s w t) : t.loadErr = (s.loadErr || s.pins.loadWe) := by
  cases h with
  | noWord | faulted | diagnosed => rfl
  | ran op t hc hk he => exact he.writes.sameOutside.loadErr

/-- Settles O48: the write of a step is judged by the run state before it, and nothing else touches `load_err`. -/
theorem loadErrIsTheLastWrite : Obligations.LoadErrIsTheLastWrite := by
  intro s t hrst ht
  by_cases hrun : s.runState = .running
  · rw [(step_live_cases ⟨hrun, hrst⟩ ht).loadErr, hrun]
    cases s.pins.loadWe <;> simp
  · rw [step_waiting hrst hrun] at ht
    cases ht
    rw [waitStep_loadErr, serveLoad_loadErr]

end Sys2Proof.Machine

/-! # The invariant of the block (R27, R31, R33, R36, R50, R55, R240, R243)

`State.Inv` holds after reset, and each part of a step keeps it: the load port, a start, and the four things the
controller can do. -/

namespace Sys2Proof.Machine

/-- Settles O41: the reset state itself, by its fields. -/
theorem resetMeetsInvariant : Obligations.ResetMeetsInvariant := fun _ _ hp =>
  { memWf := rfl
    stackWf := hp
    initWf := hp
    pcBound := Nat.zero_le _
    flForm := .inl rfl
    faultIff := ⟨nofun, nofun⟩
    faultForm := nofun
    idleForm := fun _ => rfl
    haltedForm := nofun
    diagForm := nofun }

/-- Settles O44: a start keeps what reset gave, and sets `x[7]` and `pc` to the values they had. -/
theorem resetAndStartValues : Obligations.ResetAndStartValues := by
  intro p q m
  refine ⟨⟨rfl, fun _ => rfl⟩, fun u hu => ?_, rfl, rfl⟩
  have hreg (i : Fin 7) : (State.resetWith p q).reg i.castSucc = p.gpr.get i := by
    simp [reg_resetWith, Vector.get_eq_getElem]
  rcases hu with rfl | rfl
  · exact ⟨hreg, reg_resetWith p q 7, rfl, rfl, rfl, rfl, rfl, rfl⟩
  · refine ⟨fun i => ?_, ?_, rfl, rfl, rfl, rfl, rfl, rfl⟩
    · exact (reg_setReg _ 7 i.castSucc 255).trans ((if_neg (Fin.castSucc_lt_last i).ne).trans (hreg i))
    · exact (reg_setReg _ 7 7 255).trans (if_pos rfl)

theorem State.Inv.fault_none {s : State} (hs : s.Inv) (h : s.runState ≠ .faulted) : s.fault = none :=
  Option.not_isSome_iff_eq_none.mp (mt hs.faultIff.mp h)

/-! ## The ports -/

theorem State.Inv.serveLoad {s : State} (hs : s.Inv) : s.serveLoad.Inv := by
  by_cases hi : s.runState = .idle
  · have hdiag : s.diag = [] := congrArg State.diag (hs.idleForm hi)
    have hwf : Memory.wf s.serveLoad.mem = true := by
      unfold State.serveLoad
      split
      · exact memWrite_wf _ _ hs.memWf
      · exact hs.memWf
    have hfault : s.fault = none := hs.fault_none fun hf => nomatch hi.symm.trans hf
    rw [serveLoad_eq]
    exact { hs with
      memWf := hwf
      faultForm := fun r hr => nomatch hfault.symm.trans hr
      idleForm := fun _ => congrArg
        (fun u : State => { u with mem := s.serveLoad.mem, loadErr := s.serveLoad.loadErr }) (hs.idleForm hi)
      haltedForm := fun hh => nomatch hi.symm.trans hh
      diagForm := fun d hd => absurd (hdiag ▸ hd) List.not_mem_nil }
  · rw [serveLoad_not_idle hi]
    exact { hs with idleForm := fun h => absurd h hi }

/-- A start leaves `Idle`, whose record is empty. -/
theorem State.Inv.startRun {s : State} (hs : s.Inv) (hi : s.runState = .idle) : s.startRun.Inv := by
  have hfault : s.fault = none := hs.fault_none fun hf => nomatch hi.symm.trans hf
  exact { hs with
    pcBound := Nat.zero_le _
    faultIff := by simp [State.startRun, hfault]
    faultForm := fun r hr => nomatch hfault.symm.trans hr
    idleForm := nofun
    haltedForm := nofun }

theorem State.Inv.waitStep {s : State} (hs : s.Inv) : s.waitStep.Inv := by
  rcases waitStep_cases s with ⟨-, e⟩ | ⟨hi, -, e⟩ <;> rw [e]
  · exact hs.serveLoad
  · exact hs.serveLoad.startRun (by rw [serveLoad_eq]; exact hi)

/-! ## The controller -/

/-- A fault entry whose record says what happened. -/
theorem State.Inv.enterFault {s : State} {r : Raise} {w : Word} {fir : Option Word} (hs : s.Inv)
    (hr : FaultRecord.explains ⟨r.cause, s.pc, fir, r.info⟩ s) : ((s.fetched w).enterFault r fir).Inv :=
  { hs with
    faultIff := ⟨fun _ => rfl, fun _ => rfl⟩
    faultForm := fun _ h => Option.some.inj h ▸ hr
    idleForm := nofun
    haltedForm := nofun }

/-- A state in which the run goes on or halts, after a running one whose memory, parameters and empty record it keeps. -/
theorem State.Inv.unfaulted {s t : State} (hs : s.Inv) (h : s.live) (hmem : t.mem = s.mem) (hinit : t.init = s.init)
    (hfault : t.fault = s.fault) (hstack : Stack.wf t.stack = true) (hpc : t.pc.toNat ≤ 258)
    (hfl : t.fl = s.init.fl ∨ t.fl = 1 ∨ t.fl = 2 ∨ t.fl = 4)
    (hrun : t.runState = .running ∨
      t.runState = .halted ∧ t.pc.toNat < 255 ∧ classify (s.mem.read t.pc.toNat) = .known .hlt)
    (hdiag : ∀ d ∈ t.diag, d.pc.toNat < 255 ∧ s.mem.read d.pc.toNat = d.ir ∧ classify d.ir = .unknownDirect) :
    t.Inv := by
  have hnone : t.fault = none := hfault.trans (hs.fault_none fun hf => nomatch h.1.symm.trans hf)
  have hterm : t.runState ≠ .idle ∧ t.runState ≠ .faulted := by
    rcases hrun with hr | ⟨hr, -⟩ <;> rw [hr] <;> exact ⟨nofun, nofun⟩
  exact
    { memWf := hmem ▸ hs.memWf
      stackWf := hstack
      initWf := hinit ▸ hs.initWf
      pcBound := hpc
      flForm := hinit ▸ hfl
      faultIff := by simp [hnone, hterm.2]
      faultForm := fun r hr => nomatch hnone.symm.trans hr
      idleForm := fun hi => absurd hi hterm.1
      haltedForm := fun hh => by
        rcases hrun with hr | ⟨-, hhlt⟩
        · cases hr.symm.trans hh
        · exact hmem ▸ hhlt
      diagForm := hmem ▸ hdiag }

/-- The effect of an instruction stays in form: HLT halts at the word it was decoded from, and every other run goes
on. -/
theorem State.Inv.effect {s t : State} {op : Op} {u v : Word} (hs : s.Inv) (h : s.live) (hp : s.pc.toNat < 255)
    (hpc : t.pc.toNat ≤ 258) (hc : classify (s.mem.read s.pc.toNat) = .known op)
    (ht : Writes (s.fetched (s.mem.read s.pc.toNat)) (op.build (s.mem.read s.pc.toNat) u v) t) : t.Inv := by
  have hout := ht.sameOutside
  refine hs.unfaulted h hout.mem hout.init hout.fault (ht.stack_wf hs.stackWf) hpc ?_ ?_ (hout.diag ▸ hs.diagForm)
  · rcases ht.flForm with hfl | hfl
    · exact hfl ▸ hs.flForm
    · exact .inr hfl
  · rcases ht.runState with hr | ⟨⟨n, hi⟩, rfl⟩
    · exact .inl (hr.trans h.1)
    · exact .inr ⟨rfl, hp, hc.trans (congrArg _ (op_of_build_eq hi))⟩

/-- Each of the four things the controller can do keeps the invariant. -/
theorem State.Inv.liveStep {s t : State} (hs : s.Inv) (h : s.live) (ht : LiveStep s (s.mem.read s.pc.toNat) t) :
    t.Inv := by
  cases ht with
  | noWord hp => exact hs.enterFault ⟨rfl, nofun, hp, hs.pcBound, .inl ⟨rfl, hp, rfl⟩⟩
  | faulted r hp _ hr => exact hs.enterFault hr
  | diagnosed hp hc =>
    refine hs.unfaulted h rfl rfl rfl hs.stackWf (LiveStep.diagnosed hp hc |>.pc_le hp) hs.flForm (.inl h.1) ?_
    intro d hd
    rcases List.mem_append.mp hd with hd | hd
    · exact hs.diagForm d hd
    · cases List.mem_singleton.mp hd
      exact ⟨hp, rfl, hc⟩
  | ran op t hc hk he =>
    have hp : s.pc.toNat < 255 := Nat.lt_of_le_of_lt (Nat.le_add_right ..) hk
    exact hs.effect h hp ((LiveStep.ran op t hc hk he).pc_le hp) hc he.writes

/-- Settles O40: a reset enters a state that meets the invariant, and the ports and the controller keep it. -/
theorem stepKeepsInvariant : Obligations.StepKeepsInvariant := by
  intro s t hs ht
  cases hrst : s.pins.rst with
  | true =>
    rw [step_rst hrst] at ht
    cases ht
    exact resetMeetsInvariant s.init s.pins hs.initWf
  | false =>
    by_cases hrun : s.runState = .running
    · exact hs.liveStep ⟨hrun, hrst⟩ (step_live_cases ⟨hrun, hrst⟩ ht)
    · rw [step_waiting hrst hrun] at ht
      cases ht
      exact hs.waitStep

end Sys2Proof.Machine

/-! # What a step does not read: `ir`, the two streams and the field `init` (R35, R37 to R40, log 1)

The ports neither read nor write these four. The controller latches `ir` before anything reads it, and putting words in
front of both streams and another `init` in the state commutes with every operation it is made of. -/

namespace Sys2Proof.Machine

/-! ## The ports -/

theorem serveLoad_relabel (s : State) (w : Word) (o : List Word) (d : List DiagEntry) (p : InitParams) :
    ({ s with ir := w, out := o, diag := d, init := p } : State).serveLoad =
      { s.serveLoad with ir := w, out := o, diag := d, init := p } := by
  unfold State.serveLoad State.memWrite
  split
  · split <;> rfl
  · rfl

theorem waitStep_relabel (s : State) (w : Word) (o : List Word) (d : List DiagEntry) (p : InitParams) :
    ({ s with ir := w, out := o, diag := d, init := p } : State).waitStep =
      { s.waitStep with ir := w, out := o, diag := d, init := p } := by
  rcases waitStep_cases s with ⟨hn, e⟩ | ⟨hi, hst, e⟩ <;>
    rcases waitStep_cases { s with ir := w, out := o, diag := d, init := p } with ⟨hn', e'⟩ | ⟨hi', hst', e'⟩
  · rw [e, e', serveLoad_relabel]
  · exact absurd ⟨hi', hst'⟩ hn
  · exact absurd ⟨hi, hst⟩ hn'
  · rw [e, e', serveLoad_relabel]
    rfl

theorem serveLoad_eq_relabel (s : State) :
    s.serveLoad = { s.serveLoad with ir := s.ir, out := s.out, diag := s.diag, init := s.init } :=
  serveLoad_relabel s s.ir s.out s.diag s.init

theorem waitStep_eq_relabel (s : State) :
    s.waitStep = { s.waitStep with ir := s.ir, out := s.out, diag := s.diag, init := s.init } :=
  waitStep_relabel s s.ir s.out s.diag s.init

/-! ## `ir` -/

/-- The controller overwrites `ir` before anything reads it, or faults without a word (R35, R111). -/
theorem controllerStep_ir {s t : State} (w : Word) (h : controllerStep s = .next t) :
    ∃ w', controllerStep { s with ir := w } = .next { t with ir := w' } := by
  have hwin : ({ s with ir := w } : State).window = s.window := window_congr rfl rfl
  rcases Nat.lt_or_ge s.pc.toNat 255 with hp | hp
  · have hlatch : ({ s with ir := w } : State).latchIr = s.latchIr := by
      rw [State.latchIr, State.latchIr, hwin, window_of_lt hp]
      rfl
    exact ⟨t.ir, by rw [controllerStep, hlatch, hwin]; exact h⟩
  · have hd : decode s.window = .error .noWord := by rw [window_of_ge hp, decode_nil]
    rw [controllerStep_error hd] at h
    cases h
    refine ⟨w, ?_⟩
    rw [controllerStep_error (hwin.symm ▸ hd), State.latchIr, hwin, window_of_ge hp]
    rfl

/-- Settles O51: reset and the ports do not read `ir`, and the controller overwrites it first. -/
theorem irIsNotArchitectural : Obligations.IrIsNotArchitectural := by
  intro s t w h
  cases hrst : s.pins.rst with
  | true =>
    rw [step_rst hrst] at h
    cases h
    exact ⟨0, step_rst hrst⟩
  | false =>
    by_cases hrun : s.runState = .running
    · rw [step_running hrst hrun] at h
      have hload : ({ s with ir := w } : State).serveLoad = { s.serveLoad with ir := w } := by
        rw [serveLoad_eq_relabel s]
        exact serveLoad_relabel s w s.out s.diag s.init
      rw [step_running (s := { s with ir := w }) hrst hrun, hload]
      exact controllerStep_ir w h
    · rw [step_waiting hrst hrun, waitStep_eq_relabel] at h
      cases h
      rw [step_waiting (s := { s with ir := w }) hrst hrun]
      exact ⟨w, congrArg _ (waitStep_relabel s w s.out s.diag s.init)⟩

/-! ## The streams and `init` -/

/-- The state with more at the front of both streams and other OPEN parameters. -/
def State.prepend (o : List Word) (d : List DiagEntry) (p : InitParams) (s : State) : State :=
  { s with out := o ++ s.out, diag := d ++ s.diag, init := p }

section
variable (o : List Word) (d : List DiagEntry) (p : InitParams)

theorem emit_prepend (s : State) (v : Word) : (s.prepend o d p).emit v = (s.emit v).prepend o d p := by
  simp [State.emit, State.prepend]

theorem emitDiag_prepend (s : State) : (s.prepend o d p).emitDiag = s.emitDiag.prepend o d p := by
  simp [State.emitDiag, State.prepend]

theorem latchIr_prepend (s : State) : (s.prepend o d p).latchIr = s.latchIr.prepend o d p := by
  have hwin : (s.prepend o d p).window = s.window := window_congr rfl rfl
  rw [State.latchIr, hwin]
  rfl

theorem rejected_prepend (s : State) (r : Reject) : (s.prepend o d p).rejected r = (s.rejected r).prepend o d p := by
  cases r with
  | noWord | missingOperand | unknownControl | unknownAlu => rfl
  | unknownDirect n => exact congrArg (State.advance · n) (emitDiag_prepend o d p s)

variable {o d p}

theorem settle_prepend {s t : State} {e e' : Except Raise State} (he : e' = e.map (State.prepend o d p))
    (h : settle s e = .next t) : settle (s.prepend o d p) e' = .next (t.prepend o d p) := by
  subst he
  cases e <;> cases h <;> rfl

theorem bind_prepend {α : Type} {e : Except Raise α} {f f' : α → Except Raise State}
    (hf : ∀ v, f' v = (f v).map (State.prepend o d p)) : (e >>= f') = (e >>= f).map (State.prepend o d p) := by
  cases e with
  | ok v => exact hf v
  | error r => rfl

/-- The push, followed by a computation that commutes with prepending. -/
theorem push_bind_prepend {f f' : State → Word} {s : State} {k k' : State → Except Raise State}
    (hf : ∀ u : State, f' (u.prepend o d p) = f u)
    (hk : ∀ u : State, k' (u.prepend o d p) = (k u).map (State.prepend o d p)) :
    (push f' (s.prepend o d p) >>= k') = (push f s >>= k).map (State.prepend o d p) := by
  rcases push_cases f s with ⟨h, e⟩ | ⟨h, e⟩ <;>
    rcases push_cases f' (s.prepend o d p) with ⟨h', e'⟩ | ⟨h', e'⟩ <;> rw [e, e']
  · rfl
  · exact absurd h h'
  · exact absurd h' h
  · have hword : f' ((s.prepend o d p).setReg 7 (s.reg 7 - 1)) = f (s.setReg 7 (s.reg 7 - 1)) :=
      hf (s.setReg 7 (s.reg 7 - 1))
    rw [ok_bind, ok_bind, ← hk]
    exact congrArg (fun v => k' (((s.prepend o d p).setReg 7 (s.reg 7 - 1)).setCell (s.reg 7 - 1) v)) hword

theorem exec_prepend {i : Instr} {s t : State} (h : exec i s = .next t) :
    exec i (s.prepend o d p) = .next (t.prepend o d p) := by
  cases i with
  | add n a b | mul n a b | cmp n a b =>
    exact settle_prepend (bind_prepend fun _ => bind_prepend fun _ => rfl) h
  | call n af r | push n r =>
    exact settle_prepend (bind_prepend fun _ => push_bind_prepend (fun _ => rfl) fun _ => rfl) h
  | pop n r => exact settle_prepend (bind_prepend fun _ => bind_prepend (e := stackTop s) fun _ => rfl) h
  | ret n af => exact settle_prepend (bind_prepend (e := stackTop s) fun _ => rfl) h
  | jmp n af r | ldi n r imm => exact settle_prepend (bind_prepend fun _ => rfl) h
  | jeq n af r | jne n af r =>
    refine settle_prepend (bind_prepend fun i => ?_) h
    refine congrArg Except.ok (Eq.trans ?_ (apply_ite (State.prepend o d p) _ _ _).symm)
    rfl
  | prn n r =>
    refine settle_prepend (bind_prepend fun i => ?_) h
    exact congrArg (fun u => Except.ok (State.advance u n)) (emit_prepend o d p s (s.reg i))
  | hlt n =>
    cases h
    rfl

theorem controllerStep_prepend {s t : State} (h : controllerStep s = .next t) :
    controllerStep (s.prepend o d p) = .next (t.prepend o d p) := by
  have hwin : (s.prepend o d p).window = s.window := window_congr rfl rfl
  cases hd : decode s.window with
  | ok i =>
    rw [controllerStep_ok hd] at h
    rw [controllerStep_ok (hwin.symm ▸ hd), latchIr_prepend]
    exact exec_prepend h
  | error r =>
    rw [controllerStep_error hd] at h
    cases h
    rw [controllerStep_error (hwin.symm ▸ hd), latchIr_prepend, rejected_prepend]

theorem step_prepend {s t : State} (hrst : s.pins.rst = false) (h : step s = .next t) :
    step (s.prepend o d p) = .next (t.prepend o d p) := by
  by_cases hrun : s.runState = .running
  · rw [step_running hrst hrun] at h
    rw [step_running (s := s.prepend o d p) hrst hrun]
    have hload : (s.prepend o d p).serveLoad = s.serveLoad.prepend o d p := by
      rw [serveLoad_eq_relabel s]
      exact serveLoad_relabel s s.ir _ _ p
    rw [hload]
    exact controllerStep_prepend h
  · rw [step_waiting hrst hrun, waitStep_eq_relabel] at h
    cases h
    rw [step_waiting (s := s.prepend o d p) hrst hrun]
    exact congrArg _ (waitStep_relabel s s.ir _ _ p)

end

/-- A step of a running block appends at most one entry to the two streams together. -/
theorem LiveStep.appends_le_one {s t : State} {w : Word} (h : LiveStep s w t) :
    t.out.length + t.diag.length ≤ s.out.length + s.diag.length + 1 := by
  cases h with
  | noWord | faulted => exact Nat.le_succ _
  | diagnosed => exact (congrArg (s.out.length + ·) List.length_append).le
  | ran op t hc hk he =>
    have hdiag : t.diag = s.diag := he.writes.sameOutside.diag
    rcases he.writes.out with ho | ⟨-, v, ho⟩ <;> rw [ho, hdiag]
    · exact Nat.le_succ _
    · exact (congrArg (· + s.diag.length) List.length_append).le.trans (Nat.add_right_comm ..).le

theorem step_appends_le_one {s t : State} (hrst : s.pins.rst = false) (h : step s = .next t) :
    t.out.length + t.diag.length ≤ s.out.length + s.diag.length + 1 := by
  by_cases hrun : s.runState = .running
  · exact (step_live_cases ⟨hrun, hrst⟩ h).appends_le_one
  · rw [step_waiting hrst hrun, waitStep_eq_relabel] at h
    cases h
    exact Nat.le_succ _

theorem step_answers_next (s : State) : ∃ t, step s = .next t := by
  cases hrst : s.pins.rst with
  | true => exact ⟨_, step_rst hrst⟩
  | false =>
    by_cases hrun : s.runState = .running
    · rcases live_cases ⟨hrun, hrst⟩ with ⟨-, e⟩ | ⟨-, r, -, e⟩ | ⟨-, i, -, e⟩
      · exact ⟨_, e⟩
      · exact ⟨_, e⟩
      · rcases exec_total i (s.fetched (s.mem.read s.pc.toNat)) with ⟨r, e'⟩ | ⟨t, e', -⟩
        · exact ⟨_, e.trans e'⟩
        · exact ⟨t, e.trans e'⟩
    · exact ⟨_, step_waiting hrst hrun⟩

theorem step_eq_prepend_empty {s t₀ : State} (hrst : s.pins.rst = false)
    (h₀ : step { s with out := [], diag := [] } = .next t₀) (o : List Word) (d : List DiagEntry) (p : InitParams) :
    step { s with out := o, diag := d, init := p } = .next (t₀.prepend o d p) := by
  have h := step_prepend (s := { s with out := [], diag := [] }) (o := o) (d := d) (p := p) hrst h₀
  simpa only [State.prepend, List.append_nil] using h

/-- Settles O52: what the step appends is what it leaves in the streams when they were empty before, and everything
else is the same from any contents of the streams and of `init`. -/
theorem streamsNeverSteerTheRun : Obligations.StreamsNeverSteerTheRun := by
  intro s t hrst h
  obtain ⟨t₀, h₀⟩ := step_answers_next { s with out := [], diag := [] }
  have ht : t = t₀.prepend s.out s.diag s.init := by
    cases h.symm.trans (step_eq_prepend_empty hrst h₀ s.out s.diag s.init)
    rfl
  exact ⟨t₀.out, t₀.diag, congrArg State.out ht, congrArg State.diag ht,
    step_appends_le_one (s := { s with out := [], diag := [] }) hrst h₀,
    fun o d p => ht ▸ step_eq_prepend_empty hrst h₀ o d p⟩

end Sys2Proof.Machine

/-! # The events of a step (R37, R38, R41, R208)

A diagnostic event is read off `LiveStep`. An output event comes from PRN's effect alone, and a PRN has its effect
exactly where none of the checks of R211 fails. -/

namespace Sys2Proof.Machine

theorem outEvent_isSome (s t : State) : (outEvent s t).isSome = true ↔ s.out.length < t.out.length := by
  simp [outEvent]

/-- The diagnostic of a step of a running block, if any (R117, R208). -/
theorem LiveStep.diagEvent_eq {s t : State} {w : Word} (h : LiveStep s w t) :
    diagEvent s t = if s.pc.toNat < 255 ∧ classify w = .unknownDirect then some ⟨s.pc, w⟩ else none := by
  have none_of (hd : t.diag = s.diag) : diagEvent s t = none := by
    rw [diagEvent, hd, List.getElem?_eq_none (Nat.le_refl _)]
  cases h with
  | noWord hp => exact (none_of rfl).trans (if_neg fun hc => absurd hc.1 (Nat.not_lt.mpr hp)).symm
  | faulted r hp hc hr => exact (none_of rfl).trans (if_neg fun h => hc h.2).symm
  | diagnosed hp hc => exact (List.getElem?_concat_length ..).trans (if_pos ⟨hp, hc⟩).symm
  | ran op t hc hk he =>
    exact (none_of he.writes.sameOutside.diag).trans (if_neg fun h => WordClass.noConfusion (hc.symm.trans h.2)).symm

/-- The checks of R211 for a PRN: its operand word is in memory and names a register. -/
theorem firstFault_prn {s : State} (hc : classify (s.mem.read s.pc.toNat) = .known .prn) :
    s.firstFault = none ↔ s.pc.toNat + 1 < 255 ∧ (s.mem.read (s.pc.toNat + 1)).toNat < 8 := by
  simp only [State.firstFault, hc, WordClass.operandsRead, Op.operandsRead, WordClass.known.injEq, reduceCtorEq,
    reduceIte, Nat.reduceLeDiff, le_refl, true_and, false_and, or_self]
  split_ifs <;> simp only [false_iff, true_iff] <;> omega

/-- A step of a running block appends to the output stream only where a PRN passes its checks. -/
theorem LiveStep.out {s t : State} (h : LiveStep s (s.mem.read s.pc.toNat) t) :
    t.out = s.out ∨ s.firstFault = none ∧ classify (s.mem.read s.pc.toNat) = .known .prn := by
  cases h with
  | noWord | faulted | diagnosed => exact .inl rfl
  | ran op t hc hk he =>
    rcases he.writes.out with ho | ⟨⟨n, r, hi⟩, -⟩
    · exact .inl ho
    · obtain rfl := op_of_build_eq hi
      obtain ⟨i, hreg, -⟩ := he
      exact .inr ⟨(firstFault_prn hc).mpr ⟨hk, val_of_regIdx_ok hreg ▸ i.isLt⟩, hc⟩

/-- A PRN that passes its checks appends a word. -/
theorem step_prn_out {s t : State} (h : s.live) (hc : classify (s.mem.read s.pc.toNat) = .known .prn)
    (hf : s.firstFault = none) (ht : step s = .next t) : ∃ v, t.out = s.out ++ [v] := by
  obtain ⟨hk, hr⟩ := (firstFault_prn hc).mp hf
  rw [step_live_known h hc hk] at ht
  simp only [Op.build, exec, execPrn, regIdx_of_lt hr, ok_bind] at ht
  cases ht
  exact ⟨_, rfl⟩

/-- Settles O53: the output event is PRN's append, and the diagnostic event is `LiveStep.diagEvent_eq`. -/
theorem eventsOfAStep : Obligations.EventsOfAStep := by
  intro s t h ht
  have hs := step_live_cases h ht
  rw [hs.diagEvent_eq, outEvent_isSome]
  refine ⟨⟨fun hlt => ?_, fun ⟨hf, hc⟩ => ?_⟩, ?_, ?_⟩
  · exact hs.out.resolve_left fun he => absurd (he ▸ hlt) (Nat.lt_irrefl _)
  · obtain ⟨v, ho⟩ := step_prn_out h hc hf ht
    simp [ho]
  · simp
  · intro e he
    split at he <;> cases he
    rfl

end Sys2Proof.Machine

/-! # Memory (R50 to R53, R71, R241)

What placed words read as, what the loader and `withFetchWord` place, and that only a host write in `Idle` reaches
memory. -/

namespace Sys2Proof.Machine

/-! ## Words at successive addresses -/

/-- Placing words from `a` up leaves every address below `a`. -/
theorem read_placeWords_below {m : Store} {a k : Nat} {ws : List Word} (h : k < a) :
    (placeWords m a ws).read k = m.read k := by
  induction ws generalizing m a with
  | nil => rfl
  | cons w ws ih => exact (ih (Nat.lt_succ_of_lt h)).trans (Store.read_write_ne w m h.ne)

/-- The word `k` addresses on is the one placed there, or beyond the placed words the one that was there. -/
theorem read_placeWords {m : Store} {a : Nat} {ws : List Word} (hm : Memory.wf m = true)
    (ha : a + ws.length ≤ 255) (k : Nat) : (placeWords m a ws).read (a + k) = ws.getD k (m.read (a + k)) := by
  induction ws generalizing m a k with
  | nil => rfl
  | cons w ws ih =>
    rw [List.length_cons] at ha
    cases k with
    | zero => exact (read_placeWords_below (Nat.lt_succ_self a)).trans (Store.read_write_self hm)
    | succ k =>
      have hwf : Memory.wf (m.write a w) = true := Store.write_wf (size := 255) hm (by omega)
      have hread := ih (a := a + 1) hwf (by omega) k
      rw [Store.read_write_ne w m (by omega), show a + 1 + k = a + (k + 1) by omega] at hread
      exact hread

/-! ## The loader -/

/-- In `Idle` every write of the loader lands (R53). -/
theorem loadFrom_idle {s : State} {a : Nat} {ws : List Word} (hi : s.runState = .idle) (ha : a + ws.length ≤ 255) :
    (s.loadFrom a ws).runState = .idle ∧ (s.loadFrom a ws).mem = placeWords s.mem a ws := by
  induction ws generalizing s a with
  | nil => exact ⟨hi, rfl⟩
  | cons w ws ih =>
    rw [List.length_cons] at ha
    rcases memWrite_cases s a w with ⟨-, -, e⟩ | ⟨hn, -⟩
    · rw [State.loadFrom, e]
      exact ih (s := { s with mem := s.mem.write a w, loadErr := false }) hi (by omega)
    · exact absurd ⟨hi, by omega⟩ hn

/-- Settles O50: the loader's writes place the words from address 0 up in a memory that reads 0 everywhere. -/
theorem loaderPlacesProgram : Obligations.LoaderPlacesProgram := by
  refine fun p q ws => ⟨fun h => if_neg (Nat.not_le.mpr h), fun h => ?_⟩
  have hlen : Config.loadBase + ws.length ≤ 255 := by rwa [Nat.zero_add]
  obtain ⟨hidle, hmem⟩ := loadFrom_idle (resetWith_runState p q) hlen
  refine ⟨_, if_pos h, hidle, hmem ▸ placeWords_wf rfl hlen, fun k => ?_⟩
  have hread := read_placeWords (m := []) rfl hlen k
  rw [Nat.zero_add] at hread
  exact hmem ▸ hread

/-! ## The instruction `withFetchWord` places -/

theorem fetchPlace_le (s : State) : s.fetchPlace.toNat + 3 ≤ 255 := by
  unfold State.fetchPlace
  split
  · assumption
  · decide

theorem withFetchWord_live (s : State) (nbits w : Nat) : (s.withFetchWord nbits w).live := ⟨rfl, rfl⟩

/-- The first placed word is the one at `pc`. -/
theorem read_pc_withFetchWord {s : State} (nbits w : Nat) (hm : Memory.wf s.mem = true) :
    (s.withFetchWord nbits w).mem.read (s.withFetchWord nbits w).pc.toNat = BitVec.ofNat 8 (w % 2 ^ nbits) :=
  read_placeWords (ws := tableWords nbits w) hm (fetchPlace_le s) 0

/-- The three placed words are the ones the next step sees (log 14). -/
theorem window_withFetchWord {s : State} (nbits w : Nat) (hm : Memory.wf s.mem = true) :
    (s.withFetchWord nbits w).window = tableWords nbits w := by
  have hplace : (s.withFetchWord nbits w).pc.toNat + 2 < 255 := fetchPlace_le s
  have hread := read_placeWords (ws := tableWords nbits w) hm (fetchPlace_le s)
  rw [window_three hplace]
  exact congr (congrArg _ (hread 0)) (congr (congrArg _ (hread 1)) (congrArg (· :: []) (hread 2)))

theorem decode_tableWords {nbits w : Nat} {i : Instr} (h : decodeTableWord nbits w = some i) :
    decode (tableWords nbits w) = .ok i := by
  unfold decodeTableWord at h
  split at h
  · rename_i j hj
    cases h
    exact hj
  · cases h

/-- Settles O7: the placed words are the window of a running block, so that the step decodes and runs them. -/
theorem placedWordRunsNext : Obligations.PlacedWordRunsNext := by
  intro s nbits w i hm hi
  have hlive := withFetchWord_live s nbits w
  have hplace : (s.withFetchWord nbits w).pc.toNat < 255 := Nat.lt_of_add_right_lt (fetchPlace_le s)
  have hdecode : decode (s.withFetchWord nbits w).serveLoad.window = .ok i := by
    rw [window_serveLoad_live hlive, window_withFetchWord nbits w hm]
    exact decode_tableWords hi
  refine ⟨hlive, ?_⟩
  rw [step_running hlive.2 hlive.1, controllerStep_ok hdecode, latchIr_serveLoad_live hlive hplace,
    read_pc_withFetchWord nbits w hm]

/-! ## Writes of memory -/

theorem Writes.ir {i : Instr} {s t : State} (h : Writes s i t) : t.ir = s.ir := by
  cases h <;> rfl

/-- Settles O34: neither a fault nor an effect writes any of them. -/
theorem instructionsLeaveMemory : Obligations.InstructionsLeaveMemory := by
  intro i s t h
  obtain ⟨hinit, hpins⟩ := exec_sameEnv h
  rcases exec_outcome h with ⟨r, -, rfl⟩ | he
  · exact ⟨fun _ => rfl, rfl, rfl, rfl, rfl, rfl⟩
  · have hout := he.writes.sameOutside
    exact ⟨fun a => congrArg (Store.read · a) hout.mem, hout.mem, hinit, hpins, hout.loadErr, he.writes.ir⟩

/-- No step of the controller writes memory (R53, R69). -/
theorem LiveStep.mem {s t : State} {w : Word} (h : LiveStep s w t) : t.mem = s.mem := by
  cases h with
  | noWord | faulted | diagnosed => rfl
  | ran op t hc hk he => exact he.writes.sameOutside.mem

theorem waitStep_mem (s : State) : s.waitStep.mem = s.serveLoad.mem := by
  rcases waitStep_cases s with ⟨-, e⟩ | ⟨-, -, e⟩ <;> rw [e]
  rfl

/-- Without `rst` a step does to memory what its load port does. -/
theorem step_mem {s t : State} (hrst : s.pins.rst = false) (h : step s = .next t) : t.mem = s.serveLoad.mem := by
  by_cases hrun : s.runState = .running
  · rw [serveLoad_live ⟨hrun, hrst⟩]
    exact (step_live_cases ⟨hrun, hrst⟩ h).mem
  · rw [step_waiting hrst hrun] at h
    cases h
    exact waitStep_mem s

theorem serveLoad_mem_landed {s : State} (hi : s.runState = .idle) (hw : s.pins.loadWe = true)
    (ha : s.pins.loadAddr.toNat < 255) :
    s.serveLoad.mem = s.mem.write s.pins.loadAddr.toNat s.pins.loadData := by
  rcases serveLoad_write hw with ⟨-, -, hm, -⟩ | ⟨hn, -, -⟩
  · exact hm
  · exact absurd ⟨hi, ha⟩ hn

theorem serveLoad_mem_kept {s : State}
    (h : ¬(s.runState = .idle ∧ s.pins.loadWe = true ∧ s.pins.loadAddr.toNat < 255)) : s.serveLoad.mem = s.mem := by
  cases hw : s.pins.loadWe with
  | false => rw [serveLoad_quiet hw]
  | true =>
    rcases serveLoad_write hw with ⟨hi, ha, -, -⟩ | ⟨-, hm, -⟩
    · exact absurd ⟨hi, hw, ha⟩ h
    · exact hm

/-- Settles O46: of a step without `rst` only the load port writes memory, and `load_err` is O48's. -/
theorem hostWritesOnlyInIdle : Obligations.HostWritesOnlyInIdle := by
  refine ⟨fun s a v hi ha => ⟨false, if_pos ⟨hi, ha⟩⟩, fun s a v h => if_neg ?_,
    fun s t hrst ht => ⟨?_, ?_, ?_⟩⟩
  · rintro ⟨hi, ha⟩
    exact h.elim (absurd hi) (Nat.not_le.mpr ha)
  · rintro ⟨hi, -, hw, ha⟩
    exact (step_mem hrst ht).trans (serveLoad_mem_landed hi hw ha)
  · exact fun h => (step_mem hrst ht).trans (serveLoad_mem_kept h)
  · intro hw h
    have herr := loadErrIsTheLastWrite s t hrst ht
    rw [hw] at herr
    rcases h with h | h
    · simpa [h] using herr
    · simpa [Nat.not_lt.mpr h] using herr

end Sys2Proof.Machine

/-! # The stack (R55 to R60)

PUSH and CALL are the only writers of a cell, the one below `sp`; these two, POP and RET are the only readers. -/

namespace Sys2Proof.Machine

/-! ## The cell a push writes -/

theorem push_stack {f : State → Word} {s u : State} (h : push f s = .ok u) :
    s.reg 7 ≠ 0 ∧ ∃ v, u.stack = s.stack.write (s.reg 7 - 1).toNat v := by
  rcases push_cases f s with ⟨-, e⟩ | ⟨h7, e⟩ <;> rw [e] at h <;> cases h
  exact ⟨h7, _, rfl⟩

/-- An instruction that is neither PUSH nor CALL. -/
def NoPush (i : Instr) : Prop := (∀ n r, i ≠ .push n r) ∧ ∀ n af r, i ≠ .call n af r

/-- An instruction keeps the stack, or is a PUSH or a CALL and writes the cell at the decremented `sp` (R56, R58). -/
theorem exec_stack {i : Instr} {s t : State} (h : exec i s = .next t) :
    t.stack = s.stack ∨ ¬NoPush i ∧ s.reg 7 ≠ 0 ∧ ∃ v, t.stack = s.stack.write (s.reg 7 - 1).toNat v := by
  rcases exec_outcome h with ⟨r, -, rfl⟩ | he
  · exact .inl rfl
  cases i with
  | push n r =>
    obtain ⟨_, u, -, hu, rfl⟩ := he
    obtain ⟨h7, hstack⟩ := push_stack hu
    exact .inr ⟨fun hi => hi.1 n r rfl, h7, hstack⟩
  | call n af r =>
    obtain ⟨_, u, -, hu, rfl⟩ := he
    obtain ⟨h7, hstack⟩ := push_stack hu
    exact .inr ⟨fun hi => hi.2 n af r rfl, h7, hstack⟩
  | add | mul | cmp | pop =>
    obtain ⟨_, _, -, -, rfl⟩ := he
    exact .inl rfl
  | ret | jmp | ldi | prn =>
    obtain ⟨_, -, rfl⟩ := he
    exact .inl rfl
  | jeq | jne =>
    obtain ⟨_, -, rfl⟩ := he
    split <;> exact .inl rfl
  | hlt =>
    obtain rfl := he
    exact .inl rfl

theorem toNat_sub_one {v : Word} (h : v ≠ 0) : (v - 1).toNat = v.toNat - 1 := by bv_omega

/-- Every cell but the one below `sp` is kept. -/
theorem exec_stack_read_ne {i : Instr} {s t : State} (h : exec i s = .next t) {k : Nat}
    (hk : k + 1 ≠ (s.reg 7).toNat) : t.stack.read k = s.stack.read k := by
  rcases exec_stack h with e | ⟨-, h7, v, e⟩ <;> rw [e]
  exact Store.read_write_ne v _ (by bv_omega)

/-! ## The word a push stores -/

/-- With room on the stack PUSH stores `x[j]`, read after the decrement (R185). -/
theorem exec_push {s : State} (n : BitVec 2) (j : Fin 8) (h7 : s.reg 7 ≠ 0) :
    exec (.push n (regWord j)) s = .next (((s.setReg 7 (s.reg 7 - 1)).setCell (s.reg 7 - 1)
      ((s.setReg 7 (s.reg 7 - 1)).reg j)).advance n) := by
  rcases push_cases (fun t => t.reg j) s with ⟨h0, -⟩ | ⟨-, e⟩
  · exact absurd h0 h7
  · rw [exec, execPush, regIdx_regWord, ok_bind, e]
    rfl

/-- With room on the stack CALL stores the return address `pc + 2` and jumps to `x[j]`, read after the push (R160). -/
theorem exec_call {s : State} (n : BitVec 2) (af : Bool) (j : Fin 8) (h7 : s.reg 7 ≠ 0) :
    exec (.call n af (regWord j)) s = .next (((s.setReg 7 (s.reg 7 - 1)).setCell (s.reg 7 - 1)
      (BitVec.ofNat 8 (s.pc.toNat + 2))).setPc ((s.setReg 7 (s.reg 7 - 1)).reg j).toPc) := by
  rcases push_cases (fun _ => BitVec.ofNat 8 (s.pcPlus 2)) s with ⟨h0, -⟩ | ⟨-, e⟩
  · exact absurd h0 h7
  · rw [exec, execCall, regIdx_regWord, ok_bind, e]
    rfl

theorem read_setCell_below_sp {s u : State} {v : Word} (h7 : s.reg 7 ≠ 0) (hwf : Stack.wf u.stack = true) :
    (u.setCell (s.reg 7 - 1) v).stack.read ((s.reg 7).toNat - 1) = v := by
  rw [← toNat_sub_one h7]
  exact Store.read_write_self hwf

/-! ## The instructions that do not reach the stack -/

/-- The state with another contents of the stack. -/
def State.withStack (m : Store) (s : State) : State := { s with stack := m }

theorem settle_withStack {m : Store} {s t : State} {e e' : Except Raise State}
    (he : e' = e.map (State.withStack m)) (h : settle s e = .next t) :
    settle (s.withStack m) e' = .next (t.withStack m) := by
  subst he
  cases e <;> cases h <;> rfl

theorem bind_withStack {m : Store} {α : Type} {e : Except Raise α} {f f' : α → Except Raise State}
    (hf : ∀ v, f' v = (f v).map (State.withStack m)) : (e >>= f') = (e >>= f).map (State.withStack m) := by
  cases e with
  | ok v => exact hf v
  | error r => rfl

theorem exec_withStack {i : Instr} {s t : State} (m : Store) (h : exec i s = .next t) (hi : NoPush i)
    (hpop : ∀ n r, i ≠ .pop n r) (hret : ∀ n af, i ≠ .ret n af) :
    exec i (s.withStack m) = .next (t.withStack m) := by
  cases i with
  | push n r => exact absurd rfl (hi.1 n r)
  | call n af r => exact absurd rfl (hi.2 n af r)
  | pop n r => exact absurd rfl (hpop n r)
  | ret n af => exact absurd rfl (hret n af)
  | add | mul | cmp => exact settle_withStack (bind_withStack fun _ => bind_withStack fun _ => rfl) h
  | jmp | ldi | prn => exact settle_withStack (bind_withStack fun _ => rfl) h
  | jeq | jne =>
    refine settle_withStack (bind_withStack fun i => ?_) h
    refine congrArg Except.ok (Eq.trans ?_ (apply_ite (State.withStack m) _ _ _).symm)
    rfl
  | hlt =>
    cases h
    rfl

/-- Settles O37: `exec_stack` is the frame, the word stored is what PUSH and CALL compute, and no other instruction but
POP and RET computes with the stack. -/
theorem stackFrame : Obligations.StackFrame := by
  refine ⟨fun i s t h => ⟨?_, ?_, fun k => exec_stack_read_ne h, ?_, ?_⟩,
    fun i s t m h hpush hpop hcall hret => exec_withStack m h ⟨hpush, hcall⟩ hpop hret⟩
  · intro hpush hcall k
    rcases exec_stack h with e | ⟨hi, -⟩
    · rw [e]
    · exact absurd ⟨hpush, hcall⟩ hi
  · intro h7 k
    exact exec_stack_read_ne h (by simp [h7])
  · rintro n j rfl h7 hwf
    rw [exec_push n j h7] at h
    cases h
    exact read_setCell_below_sp h7 hwf
  · rintro n af j rfl h7 hwf
    rw [exec_call n af j h7] at h
    cases h
    exact read_setCell_below_sp h7 hwf

end Sys2Proof.Machine

/-! # The encoding (R80 to R90)

A word's family and code name its instruction, and an instruction's first word is its family's flags around its code:
`classify_irWord` and `irWord_build` say that these two tables are inverse, and `decode` and `encode` then are. -/

namespace Sys2Proof

/-! ## The class of a word -/

theorem classify_control {ir : Word} (hp : pField ir = true) :
    classify ir = classOr .unknownControl (controlOp (codeField ir)) := if_pos hp

theorem classify_alu {ir : Word} (hp : pField ir = false) (ha : aField ir = true) :
    classify ir = classOr .unknownAlu (aluOp (codeField ir)) := by
  simp [classify, hp, ha]

theorem classify_direct {ir : Word} (hp : pField ir = false) (ha : aField ir = false) :
    classify ir = classOr .unknownDirect (directOp (codeField ir)) := by
  simp [classify, hp, ha]

@[simp] theorem controlOp_isSome (c : BitVec 4) : (controlOp c).isSome = true ↔ c.toNat ∈ [0, 1, 4, 5, 6] := by
  revert c
  decide

@[simp] theorem aluOp_isSome (c : BitVec 4) : (aluOp c).isSome = true ↔ c.toNat ∈ [0, 2, 7] := by
  revert c
  decide

@[simp] theorem directOp_isSome (c : BitVec 4) : (directOp c).isSome = true ↔ c.toNat ∈ [1, 2, 5, 6, 7] := by
  revert c
  decide

theorem eq_some_of_classOr {u : WordClass} {o : Option Op} {op : Op} (h : classOr u o = .known op)
    (hu : ∀ op, u ≠ .known op) : o = some op := by
  cases o with
  | none => exact absurd h (hu op)
  | some _ => exact congrArg some (WordClass.known.inj h)

@[simp] theorem classOr_eq_some_known {u : WordClass} {o : Option Op} (hu : ∀ op, u ≠ .known op) :
    (∃ op, classOr u o = .known op) ↔ o.isSome = true := by
  cases o with
  | none => simp [classOr, hu]
  | some op => simp [classOr]

@[simp] theorem classOr_eq_unknown {u : WordClass} {o : Option Op} (hu : ∀ op, u ≠ .known op) :
    classOr u o = u ↔ ¬o.isSome = true := by
  cases o with
  | none => simp [classOr]
  | some op => simpa [classOr] using (hu op).symm

@[simp] theorem classOr_ne_unknown {u u' : WordClass} {o : Option Op} (hne : u ≠ u') (hu : ∀ op, u' ≠ .known op) :
    classOr u o ≠ u' := by
  cases o with
  | none => exact hne
  | some op => exact (hu op).symm

/-- A known word's family has its code. -/
theorem known_cases {ir : Word} {op : Op} (h : classify ir = .known op) :
    (pField ir = true ∧ controlOp (codeField ir) = some op) ∨
    (pField ir = false ∧ aField ir = true ∧ aluOp (codeField ir) = some op) ∨
    (pField ir = false ∧ aField ir = false ∧ directOp (codeField ir) = some op) := by
  cases hp : pField ir with
  | true =>
    rw [classify_control hp] at h
    exact .inl ⟨rfl, eq_some_of_classOr h nofun⟩
  | false =>
    cases ha : aField ir with
    | true =>
      rw [classify_alu hp ha] at h
      exact .inr (.inl ⟨rfl, rfl, eq_some_of_classOr h nofun⟩)
    | false =>
      rw [classify_direct hp ha] at h
      exact .inr (.inr ⟨rfl, rfl, eq_some_of_classOr h nofun⟩)

/-! ## Decoding an encoded instruction -/

/-- An encoded instruction's first word is of its class (R86). -/
theorem classify_irWord (i : Instr) : classify i.irWord = .known i.op := by
  cases i <;> rw [Instr.irWord, classify_irOf] <;> rfl

theorem operands_length (i : Instr) : i.operands.length = i.op.operandsRead := by
  cases i <;> rfl

/-- An instruction is built from the fields of its first word and its operand words. -/
theorem build_irWord (i : Instr) (rest : List Word) :
    i.op.build i.irWord ((i.operands ++ rest).getD 0 0) ((i.operands ++ rest).getD 1 0) = i := by
  cases i <;> simp [Instr.op, Op.build, Instr.irWord, Instr.operands, nField_irOf, aField_irOf]

/-- Settles O4: the first word has the instruction's class, all its operand words follow, and the fields and operands
build the instruction again. -/
theorem decodeEncode : Obligations.DecodeEncode := by
  intro i rest
  have hlen : (classify i.irWord).operandsRead ≤ (i.operands ++ rest).length := by
    rw [classify_irWord, List.length_append, operands_length]
    exact Nat.le_add_right ..
  calc decode (encode i ++ rest)
      = select i.irWord ((i.operands ++ rest).getD 0 0) ((i.operands ++ rest).getD 1 0) := decode_cons hlen
    _ = .ok (i.op.build i.irWord _ _) := select_known _ _ (classify_irWord i)
    _ = .ok i := congrArg _ (build_irWord i rest)

/-! ## Encoding a decoded instruction -/

theorem irWord_build_control {c : BitVec 4} {op : Op} (ir u v : Word) (h : controlOp c = some op) :
    (op.build ir u v).irWord = irOf (nField ir) (aField ir) true c := by
  unfold controlOp at h
  split at h <;> cases h
  all_goals exact congrArg (irOf (nField ir) (aField ir) true) (BitVec.eq_of_toNat_eq (Eq.symm ‹_›))

theorem irWord_build_alu {c : BitVec 4} {op : Op} (ir u v : Word) (h : aluOp c = some op) :
    (op.build ir u v).irWord = irOf (nField ir) true false c := by
  unfold aluOp at h
  split at h <;> cases h
  all_goals exact congrArg (irOf (nField ir) true false) (BitVec.eq_of_toNat_eq (Eq.symm ‹_›))

theorem irWord_build_direct {c : BitVec 4} {op : Op} (ir u v : Word) (h : directOp c = some op) :
    (op.build ir u v).irWord = irOf (nField ir) false false c := by
  unfold directOp at h
  split at h <;> cases h
  all_goals exact congrArg (irOf (nField ir) false false) (BitVec.eq_of_toNat_eq (Eq.symm ‹_›))

/-- The instruction a word selects has that first word: the encoder drops no field. -/
theorem irWord_build {ir : Word} {op : Op} (u v : Word) (h : classify ir = .known op) :
    (op.build ir u v).irWord = ir := by
  have hf := irOf_fields ir
  rcases known_cases h with ⟨hp, hc⟩ | ⟨hp, ha, hc⟩ | ⟨hp, ha, hc⟩
  · rw [hp] at hf
    exact (irWord_build_control ir u v hc).trans hf
  · rw [hp, ha] at hf
    exact (irWord_build_alu ir u v hc).trans hf
  · rw [hp, ha] at hf
    exact (irWord_build_direct ir u v hc).trans hf

/-- An instruction's operand words are the first ones of the words it was built from, as many as it reads. -/
theorem operands_build_prefix {op : Op} {ops : List Word} (ir : Word) (h : op.operandsRead ≤ ops.length) :
    (op.build ir (ops.getD 0 0) (ops.getD 1 0)).operands <+: ops := by
  cases op with
  | ret | hlt => exact List.nil_prefix
  | call | jmp | jeq | jne | prn | pop | push =>
    match ops, h with
    | u :: rest, _ => exact ⟨rest, rfl⟩
  | add | mul | cmp | ldi =>
    match ops, h with
    | u :: v :: rest, _ => exact ⟨rest, rfl⟩

/-- Settles O5: the first word is the one decoded, and the operand words are those that follow it. -/
theorem decodedWordsAreTheEncoding : Obligations.DecodedWordsAreTheEncoding := by
  intro ws i h
  obtain ⟨ir, ops, op, rfl, hc, hl, rfl⟩ := decode_ok h
  rw [encode, irWord_build _ _ hc, List.prefix_cons_inj]
  exact operands_build_prefix ir hl

/-! ## The tables of R87, R88 and R90 -/

/-- Settles O1: each canonical word is computed by the encoder, and `decodeEncode` decodes it. -/
theorem canonicalWordsDecode : Obligations.CanonicalWordsDecode := fun u v rest =>
  ⟨⟨decodeEncode (.add 2 u v) rest, rfl⟩, ⟨decodeEncode (.mul 2 u v) rest, rfl⟩,
   ⟨decodeEncode (.cmp 2 u v) rest, rfl⟩, ⟨decodeEncode (.call 1 false u) rest, rfl⟩,
   ⟨decodeEncode (.ret 0 false) rest, rfl⟩, ⟨decodeEncode (.jmp 1 false u) rest, rfl⟩,
   ⟨decodeEncode (.jeq 1 false u) rest, rfl⟩, ⟨decodeEncode (.jne 1 false u) rest, rfl⟩,
   ⟨decodeEncode (.hlt 0) rest, rfl⟩, ⟨decodeEncode (.ldi 2 u v) rest, rfl⟩,
   ⟨decodeEncode (.prn 1 u) rest, rfl⟩, ⟨decodeEncode (.pop 1 u) rest, rfl⟩,
   ⟨decodeEncode (.push 1 u) rest, rfl⟩⟩

/-- Settles O2: the three branches of `classify`. -/
theorem selectionByFlagsThenCode : Obligations.SelectionByFlagsThenCode :=
  fun _ => ⟨classify_control, classify_alu, classify_direct⟩

/-- Settles O3: the flags choose the family, whose row of R86 has the code or not; the nine counts run over all 256
words. -/
theorem everyWordHasOneClass : Obligations.EveryWordHasOneClass := by
  refine ⟨fun ir => ?_, by decide +kernel⟩
  cases hp : pField ir with
  | true => simp [-List.mem_cons, classify_control hp]
  | false =>
    cases ha : aField ir with
    | true => simp [-List.mem_cons, classify_alu hp ha]
    | false => simp [-List.mem_cons, classify_direct hp ha]

end Sys2Proof

/-! # The aliases of the PC-mutating words (R89)

The PC-mutating instructions ignore `n` and `A`, and the effect of an instruction reads neither memory nor `ir`. -/

namespace Sys2Proof.Machine

/-- An instruction that has its effect answers it: the converse of `exec_cases`. -/
theorem Effect.exec_eq {i : Instr} {s t : State} (h : Effect s t i) : exec i s = .next t := by
  cases i with
  | add | mul | cmp =>
    obtain ⟨_, _, hi, hj, rfl⟩ := h
    simp only [exec, execAdd, execMul, execCmp, hi, hj, ok_bind]
    rfl
  | call | push =>
    obtain ⟨_, _, hi, hu, rfl⟩ := h
    simp only [exec, execCall, execPush, hi, hu, ok_bind]
    rfl
  | pop =>
    obtain ⟨_, _, hi, hv, rfl⟩ := h
    simp only [exec, execPop, hi, hv, ok_bind]
    rfl
  | ret =>
    obtain ⟨_, hv, rfl⟩ := h
    simp only [exec, execRet, hv, ok_bind]
    rfl
  | jmp | jeq | jne | ldi | prn =>
    obtain ⟨_, hi, rfl⟩ := h
    simp only [exec, execJmp, execJeq, execJne, execLdi, execPrn, hi, ok_bind]
    rfl
  | hlt =>
    obtain rfl := h
    rfl

/-- The state with another memory and another word in `ir`. -/
def State.withCode (m : Store) (w : Word) (s : State) : State := { s with mem := m, ir := w }

theorem push_withCode {f : State → Word} {s u : State} (m : Store) (w : Word)
    (hf : ∀ t : State, f (t.withCode m w) = f t) (h : push f s = .ok u) :
    push f (s.withCode m w) = .ok (u.withCode m w) := by
  rcases push_cases f s with ⟨-, e⟩ | ⟨h7, e⟩ <;> rw [e] at h <;> cases h
  rcases push_cases f (s.withCode m w) with ⟨h0, -⟩ | ⟨-, e'⟩
  · exact absurd h0 h7
  · rw [e', ← hf (s.setReg 7 (s.reg 7 - 1))]
    rfl

/-- The effect of an instruction depends on neither memory nor `ir`. -/
theorem Effect.withCode {i : Instr} {s t : State} (m : Store) (w : Word) (h : Effect s t i) :
    Effect (s.withCode m w) (t.withCode m w) i := by
  cases i with
  | add | mul | cmp | pop =>
    obtain ⟨i, j, hi, hj, rfl⟩ := h
    exact ⟨i, j, hi, hj, rfl⟩
  | call | push =>
    obtain ⟨i, u, hi, hu, rfl⟩ := h
    exact ⟨i, u.withCode m w, hi, push_withCode m w (fun _ => rfl) hu, rfl⟩
  | ret | jmp | ldi | prn =>
    obtain ⟨i, hi, rfl⟩ := h
    exact ⟨i, hi, rfl⟩
  | jeq | jne =>
    obtain ⟨i, hi, rfl⟩ := h
    exact ⟨i, hi, apply_ite (State.withCode m w) ..⟩
  | hlt =>
    obtain rfl := h
    rfl

/-- A PC-mutating instruction has the same effect whatever `n` and `A` its word has. -/
theorem Effect.control_alias {c : BitVec 4} {op : Op} {s t : State} {ir u v : Word} (ir' : Word)
    (hop : controlOp c = some op) (h : Effect s t (op.build ir u v)) : Effect s t (op.build ir' u v) := by
  unfold controlOp at hop
  split at hop <;> cases hop <;> exact h

/-- A PC-mutating word is never a diagnostic, so a step that fetches one faults or runs one of the five instructions. -/
theorem LiveStep.control {s t : State} {ir : Word} (h : LiveStep s ir t) (hp : pField ir = true)
    (ht : t.runState ≠ .faulted) :
    ∃ op, controlOp (codeField ir) = some op ∧ s.pc.toNat + op.operandsRead < 255 ∧
      Effect (s.fetched ir) t (op.build ir (s.mem.read (s.pc.toNat + 1)) (s.mem.read (s.pc.toNat + 2))) := by
  cases h with
  | noWord _ => exact absurd rfl ht
  | faulted => exact absurd rfl ht
  | diagnosed _ hc =>
    rw [classify_control hp] at hc
    exact absurd hc (classOr_ne_unknown nofun nofun)
  | ran op _ hc hk he =>
    rw [classify_control hp] at hc
    exact ⟨op, eq_some_of_classOr hc nofun, hk, he⟩

/-- Settles O54: the other word selects the same instruction, whose effect is the same with that word in memory and
in `ir`. -/
theorem controlAliasesRunAlike : Obligations.ControlAliasesRunAlike := by
  intro s t w h _ hwf hp hpw hcode hstep ht
  obtain ⟨op, hop, hk, he⟩ := (step_live_cases h hstep).control hp ht
  have hself : (s.mem.write s.pc.toNat w).read s.pc.toNat = w := Store.read_write_self hwf
  have hnext (k : Nat) : (s.mem.write s.pc.toNat w).read (s.pc.toNat + (k + 1)) = s.mem.read (s.pc.toNat + (k + 1)) :=
    Store.read_write_ne w s.mem (by omega)
  have hc : classify w = .known op := by
    rw [classify_control hpw, hcode, hop]
    rfl
  rw [step_live_known (s := { s with mem := s.mem.write s.pc.toNat w }) h ((congrArg classify hself).trans hc) hk]
  simp only [hself, hnext 0, hnext 1]
  exact ((he.control_alias w hop).withCode (s.mem.write s.pc.toNat w) w).exec_eq

end Sys2Proof.Machine

/-! # The execution loop (R110 to R120)

The step is total, only the ports act in a block that is not running, and what a running block does at `pc` is read off
`LiveStep`. -/

namespace Sys2Proof.Machine

/-- Settles O8: `step_answers_next`, which splits a step into a reset, a wait and the three cases of a running block. -/
theorem stepAlwaysAnswersNext : Obligations.StepAlwaysAnswersNext := step_answers_next

/-- Settles O9: the load port writes memory and `load_err` alone, and a start the run state, `pc` and `x[7]` besides. -/
theorem noStepUnlessRunning : Obligations.NoStepUnlessRunning := by
  intro s hrun hrst
  refine ⟨s.waitStep, step_waiting hrst hrun, ?_⟩
  rcases waitStep_cases s with ⟨-, e⟩ | ⟨hidle, hstart, e⟩ <;> rw [e, serveLoad_eq]
  · exact ⟨rfl, rfl, rfl, rfl, rfl, fun _ _ => rfl, fun _ => ⟨rfl, rfl, rfl⟩⟩
  · exact ⟨rfl, rfl, rfl, rfl, rfl, fun i hi => (reg_setReg _ 7 i _).trans (if_neg hi),
      fun hn => absurd ⟨hidle, hstart⟩ hn⟩

/-! ## The fetch -/

/-- A step that can fetch leaves the fetched word in `ir` (log 3): neither a fault, a diagnostic nor an instruction
writes it after the fetch. -/
theorem LiveStep.ir {s t : State} {w : Word} (h : LiveStep s w t) (hp : s.pc.toNat < 255) : t.ir = w := by
  cases h with
  | noWord h255 => omega
  | faulted | diagnosed => rfl
  | ran op t hc hk he => exact he.writes.ir

/-- Settles O10: below 255 by `LiveStep.ir`, and from 255 up by the first case of `live_cases`, the only one left. -/
theorem fetchReadsOrFaults : Obligations.FetchReadsOrFaults := by
  refine fun s h => ⟨fun hp => ?_, fun hp => ?_⟩
  · obtain ⟨t, ht⟩ := step_answers_next s
    exact ⟨t, ht, (step_live_cases h ht).ir hp⟩
  · rcases live_cases h with ⟨-, e⟩ | ⟨hlt, -⟩ | ⟨hlt, -⟩
    · rw [e, serveLoad_live h]
      rfl
    · exact absurd hlt (Nat.not_lt.mpr hp)
    · exact absurd hlt (Nat.not_lt.mpr hp)

/-! ## What the fetched word decides -/

/-- Settles O12: an unknown direct-action word is fetched, raises no fault and selects no instruction, so that the step
is the diagnostic and the advance. -/
theorem unknownDirectWordIsDiagnosed : Obligations.UnknownDirectWordIsDiagnosed := by
  intro s h hp hc
  obtain ⟨t, ht⟩ := step_answers_next s
  rw [ht]
  cases step_live_cases h ht with
  | noWord h255 => omega
  | faulted r _ hne => exact absurd hc hne
  | diagnosed => rfl
  | ran op _ hop => cases hc.symm.trans hop

/-- A step of a running block halts only by the effect of an HLT (R120). -/
theorem LiveStep.halted {s t : State} {w : Word} (h : LiveStep s w t) (hs : s.live) (ht : t.runState = .halted) :
    s.pc.toNat < 255 ∧ classify w = .known .hlt := by
  cases h with
  | noWord | faulted => cases ht
  | diagnosed => cases hs.1.symm.trans ht
  | ran op t hc hk he =>
    rcases he.writes.runState with hr | ⟨⟨n, hi⟩, -⟩
    · cases hs.1.symm.trans (hr.symm.trans ht)
    · exact ⟨Nat.lt_of_le_of_lt (Nat.le_add_right ..) hk, hc.trans (congrArg _ (op_of_build_eq hi))⟩

/-- A running block at an HLT word halts: HLT has no operand to miss and raises nothing (R181). -/
theorem step_hlt {s : State} (h : s.live) (hp : s.pc.toNat < 255)
    (hc : classify (s.mem.read s.pc.toNat) = .known .hlt) :
    step s = .next (s.fetched (s.mem.read s.pc.toNat)).halt :=
  step_live_known h hc hp

/-- Settles O19: `LiveStep.halted` and `step_hlt` are the two directions. -/
theorem onlyHltHalts : Obligations.OnlyHltHalts := by
  refine fun s t h ht => ⟨(step_live_cases h ht).halted h, fun ⟨hp, hc⟩ => ?_⟩
  cases ht.symm.trans (step_hlt h hp hc)
  rfl

/-! ## The words the decoder is shown -/

/-- The words read from `a` up are those of the next `n` addresses that memory has. -/
theorem wordsFrom_eq_map_filter (s : State) (n a : Nat) :
    wordsFrom s n a = ((List.range' a n).filter (· < 255)).map s.mem.read := by
  induction n generalizing a with
  | zero => rfl
  | succ n ih =>
    rw [List.range'_succ]
    rcases Nat.lt_or_ge a 255 with ha | ha
    · rw [wordsFrom_of_lt ha, ih, List.filter_cons_of_pos (by simpa using ha), List.map_cons]
    · rw [List.filter_cons_of_neg (by simpa using ha), ← ih, wordsFrom_of_ge ha, wordsFrom_of_ge (by omega)]

/-- The decoder is shown the words at `pc`, `pc + 1` and `pc + 2`, as far as there are addresses (R28, R84). -/
theorem window_eq_wordsAtPc (s : State) : s.window = s.wordsAtPc := by
  have haddr : List.range' s.pc.toNat 3 = [0, 1, 2].map (s.pc.toNat + ·) := rfl
  rw [State.window, wordsFrom_eq_map_filter, haddr, List.filter_map, List.map_map]
  rfl

/-- Settles O6: the words decode, so of the three cases of `live_cases` only the one that runs `i` is left. -/
theorem stepRunsTheDecodedInstruction : Obligations.StepRunsTheDecodedInstruction := by
  intro s i h hi
  rw [← window_eq_wordsAtPc] at hi
  rcases live_cases h with ⟨hp, -⟩ | ⟨-, r, hr, -⟩ | ⟨-, j, hj, e⟩
  · rw [window_of_ge hp, decode_nil] at hi
    cases hi
  · cases hi.symm.trans hr
  · cases hi.symm.trans hj
    exact e

end Sys2Proof.Machine

/-! # The ALU instructions (R140 to R144)

ADD, MUL and CMP read their operand words, check the two registers in order and then have their effect; an unknown ALU
code reads the operand words too and faults before any register is checked. -/

namespace Sys2Proof.Machine

/-! ## Faults before an instruction runs -/

/-- A running block whose words are no instruction does what their rejection says. -/
theorem step_live_rejected {s : State} {r : Reject} (h : s.live) (hp : s.pc.toNat < 255)
    (hd : decode s.window = .error r) : step s = .next ((s.fetched (s.mem.read s.pc.toNat)).rejected r) := by
  rw [step_running h.2 h.1, controllerStep_error ((window_serveLoad_live h).symm ▸ hd), latchIr_serveLoad_live h hp]

/-- The missing operand word is the one at 255, the first address outside memory. -/
theorem decode_window_missing {s : State} (hp : s.pc.toNat < 255)
    (hk : 255 ≤ s.pc.toNat + (classify (s.mem.read s.pc.toNat)).operandsRead) :
    decode s.window = .error (.missingOperand (255 - s.pc.toNat)) := by
  have htwo := operandsRead_le_two (classify (s.mem.read s.pc.toNat))
  have hlen : (wordsFrom s 2 (s.pc.toNat + 1)).length + 1 = 255 - s.pc.toNat := by
    rw [wordsFrom_length]
    omega
  rw [window_of_lt hp, decode_missing (by omega), hlen]

/-- Words that read an operand outside memory raise MemoryFault with 255 (R202). -/
theorem step_live_missing {s : State} (h : s.live) (hp : s.pc.toNat < 255)
    (hk : 255 ≤ s.pc.toNat + (classify (s.mem.read s.pc.toNat)).operandsRead) :
    step s = .next ((s.fetched (s.mem.read s.pc.toNat)).faultedWith .memoryFault 255) := by
  have haddr : (s.fetched (s.mem.read s.pc.toNat)).pcPlus (255 - s.pc.toNat) = 255 := Nat.add_sub_of_le hp.le
  rw [step_live_rejected h hp (decode_window_missing hp hk), State.rejected, haddr]
  rfl

/-- The first word of an instruction faults where memory does not hold the operands it reads, whatever its `n` and `A`
are (R202). -/
theorem operandFetchFaults_irWord (i : Instr) : OperandFetchFaults i.irWord i.op.operandsRead := by
  intro s h hp hw hk
  have hread : (classify (s.mem.read s.pc.toNat)).operandsRead = i.op.operandsRead := by
    rw [hw, classify_irWord, WordClass.operandsRead]
  exact hw ▸ step_live_missing h hp (hread.symm ▸ hk)

/-! ## Unknown codes (R144) -/

/-- An unknown ALU word whose operand words are in memory is rejected by its code, whatever these words are. -/
theorem decode_window_unknownAlu {s : State} (hc : classify (s.mem.read s.pc.toNat) = .unknownAlu)
    (hk : s.pc.toNat + 2 < 255) : decode s.window = .error (.unknownAlu (codeField (s.mem.read s.pc.toNat))) := by
  rw [window_three hk, decode_cons (hc ▸ Nat.le_refl 2), select, hc]

/-- Settles O13: an unknown ALU word reads two operand words, so that it is rejected by its code where memory holds
both, and for a missing operand where it does not. -/
theorem unknownAluCodeFaults : Obligations.UnknownAluCodeFaults := by
  refine fun s h hp hc => ⟨fun hk => ?_, fun hk => step_live_missing h hp (hc ▸ hk)⟩
  rw [step_live_rejected h hp (decode_window_unknownAlu hc hk), State.rejected, State.faultedWith,
    BitVec.ofNat_toNat]
  rfl

/-! ## Register operands (R24) -/

/-- A register operand of 8 or more faults before anything after it is done. -/
theorem settle_regIdx_of_ge {w : Word} (s : State) (f : Fin 8 → Except Raise State) (h : 8 ≤ w.toNat) :
    settle s (regIdx w >>= f) = .next (s.faultedWith .registerFault w.toNat) := by
  rw [regIdx_of_ge h, error_bind, settle_error, State.faultedWith, BitVec.ofNat_toNat]
  rfl

/-- An instruction that checks its first and then its second operand raises RegisterFault in this order (R211). -/
theorem twoRegisterFaults_of_exec {mk : Word → Word → Instr} {f : State → Fin 8 → Fin 8 → Except Raise State}
    (h : ∀ a b s, exec (mk a b) s = settle s (regIdx a >>= fun i => regIdx b >>= f s i)) : TwoRegisterFaults mk := by
  refine fun a b s => ⟨fun ha => ?_, fun ha hb => ?_⟩
  · rw [h, settle_regIdx_of_ge s _ ha]
  · rw [h, regIdx_of_lt ha, ok_bind, settle_regIdx_of_ge s _ hb]

/-! ## The comparison flag (R143) -/

theorem compareFlag_of_eq {u v : Word} (h : u.toNat = v.toNat) : compareFlag u v = 0x01 := if_pos h

theorem compareFlag_of_gt {u v : Word} (h : v.toNat < u.toNat) : compareFlag u v = 0x02 :=
  (if_neg h.ne').trans (if_pos h)

theorem compareFlag_of_lt {u v : Word} (h : u.toNat < v.toNat) : compareFlag u v = 0x04 :=
  (if_neg h.ne).trans (if_neg h.asymm)

/-! ## ADD, MUL and CMP -/

/-- Settles O21: ADD's words are those of its encoding, its two registers are checked in order, and its effect is the
sum. -/
theorem addSumsModulo256 : Obligations.AddSumsModulo256 :=
  ⟨rfl, fun n a b => decodeEncode (.add n a b), fun n => operandFetchFaults_irWord (.add n 0 0),
    fun _ => twoRegisterFaults_of_exec fun _ _ _ => rfl,
    fun _ i j _ => Effect.exec_eq ⟨i, j, regIdx_regWord i, regIdx_regWord j, rfl⟩⟩

/-- Settles O22: as for ADD, and the effect is the low byte of the product. -/
theorem mulKeepsLowByte : Obligations.MulKeepsLowByte :=
  ⟨rfl, fun n a b => decodeEncode (.mul n a b), fun n => operandFetchFaults_irWord (.mul n 0 0),
    fun _ => twoRegisterFaults_of_exec fun _ _ _ => rfl,
    fun _ i j _ => Effect.exec_eq ⟨i, j, regIdx_regWord i, regIdx_regWord j, rfl⟩⟩

/-- Settles O23: as for ADD, and the effect is the comparison flag, one value for each outcome of the comparison. -/
theorem cmpSetsExactlyOneFlag : Obligations.CmpSetsExactlyOneFlag :=
  ⟨rfl, fun n a b => decodeEncode (.cmp n a b), fun n => operandFetchFaults_irWord (.cmp n 0 0),
    fun _ => twoRegisterFaults_of_exec fun _ _ _ => rfl,
    fun _ i j s => ⟨compareFlag (s.reg i) (s.reg j),
      Effect.exec_eq ⟨i, j, regIdx_regWord i, regIdx_regWord j, rfl⟩,
      compareFlag_of_eq, compareFlag_of_gt, compareFlag_of_lt⟩⟩

end Sys2Proof.Machine

/-! # The control-flow instructions (R160 to R167)

CALL, JMP, JEQ and JNE check one register word, and each of the five then sets `pc` itself; an unknown PC-mutating code
faults before any operand is read. -/

namespace Sys2Proof.Machine

/-! ## Unknown codes (R165) -/

/-- An unknown PC-mutating word reads no operand word, so that it is rejected by its code wherever it can be fetched. -/
theorem decode_window_unknownControl {s : State} (hc : classify (s.mem.read s.pc.toNat) = .unknownControl)
    (hp : s.pc.toNat < 255) : decode s.window = .error (.unknownControl (codeField (s.mem.read s.pc.toNat))) := by
  rw [window_of_lt hp, decode_cons (hc ▸ Nat.zero_le _), select, hc]

/-- Settles O14: the word is rejected by its code, and the rejection is the fault entry. -/
theorem unknownControlCodeFaults : Obligations.UnknownControlCodeFaults := by
  intro s h hp hc
  rw [step_live_rejected h hp (decode_window_unknownControl hc hp), State.rejected, State.faultedWith,
    BitVec.ofNat_toNat]
  rfl

/-! ## One register operand and a branch target -/

/-- An instruction that checks its one operand first raises RegisterFault for a word of 8 or more (R24). -/
theorem oneRegisterFaults_of_exec {mk : Word → Instr} {f : State → Fin 8 → Except Raise State}
    (h : ∀ r s, exec (mk r) s = settle s (regIdx r >>= f s)) : OneRegisterFaults mk := by
  intro r s hr
  rw [h, settle_regIdx_of_ge s _ hr]

theorem toPc_eq_ofNat (w : Word) : w.toPc = BitVec.ofNat 9 w.toNat := (BitVec.ofNat_toNat ..).symm

/-! ## JMP, JEQ and JNE -/

/-- JMP goes to `x[i]` (R162). -/
theorem exec_jmp (n : BitVec 2) (af : Bool) (i : Fin 8) (s : State) :
    exec (.jmp n af (regWord i)) s = .next (s.setPc (BitVec.ofNat 9 (s.reg i).toNat)) :=
  Effect.exec_eq ⟨i, regIdx_regWord i, by rw [toPc_eq_ofNat]⟩

/-- Settles O26: JMP's words are those of its encoding, its register is checked, and its effect is the jump. -/
theorem jmpSetsPc : Obligations.JmpSetsPc :=
  ⟨rfl, fun n af r => decodeEncode (.jmp n af r), fun n af => operandFetchFaults_irWord (.jmp n af 0),
    fun _ _ => oneRegisterFaults_of_exec fun _ _ => rfl, exec_jmp⟩

/-- JEQ goes to `x[i]` or on, by bit 0 of `FL` (R163). -/
theorem exec_jeq (n : BitVec 2) (af : Bool) (i : Fin 8) (s : State) :
    exec (.jeq n af (regWord i)) s =
      .next (s.setPc (BitVec.ofNat 9 (if s.fl.getLsbD 0 = true then (s.reg i).toNat else s.pc.toNat + 2))) := by
  refine Effect.exec_eq ⟨i, regIdx_regWord i, ?_⟩
  rw [flE, toPc_eq_ofNat]
  cases s.fl.getLsbD 0 <;> rfl

/-- JNE goes on or to `x[i]`, by bit 0 of `FL` (R164). -/
theorem exec_jne (n : BitVec 2) (af : Bool) (i : Fin 8) (s : State) :
    exec (.jne n af (regWord i)) s =
      .next (s.setPc (BitVec.ofNat 9 (if s.fl.getLsbD 0 = false then (s.reg i).toNat else s.pc.toNat + 2))) := by
  refine Effect.exec_eq ⟨i, regIdx_regWord i, ?_⟩
  rw [flE, toPc_eq_ofNat]
  cases s.fl.getLsbD 0 <;> rfl

/-- Settles O27: as for JMP, and the effect is the branch on E. -/
theorem jeqJumpsOnEqual : Obligations.JeqJumpsOnEqual :=
  ⟨rfl, fun n af r => decodeEncode (.jeq n af r), fun n af => operandFetchFaults_irWord (.jeq n af 0),
    fun _ _ => oneRegisterFaults_of_exec fun _ _ => rfl, exec_jeq⟩

/-- Settles O28: as for JEQ, on not E. -/
theorem jneJumpsOnNotEqual : Obligations.JneJumpsOnNotEqual :=
  ⟨rfl, fun n af r => decodeEncode (.jne n af r), fun n af => operandFetchFaults_irWord (.jne n af 0),
    fun _ _ => oneRegisterFaults_of_exec fun _ _ => rfl, exec_jne⟩

/-- Settles O57: the jump leaves a running block at 255, where its next step has no word to fetch. -/
theorem branchTo255FaultsAtNextFetch : Obligations.BranchTo255FaultsAtNextFetch := by
  intro s n af i h h255 hd
  have hstep : step s = .next ((s.fetched (s.mem.read s.pc.toNat)).setPc 255) := by
    have hpc : BitVec.ofNat 9 ((s.fetched (s.mem.read s.pc.toNat)).reg i).toNat = 255 :=
      congrArg (fun w => BitVec.ofNat 9 w.toNat) h255
    rw [stepRunsTheDecodedInstruction s _ h hd, exec_jmp, hpc]
  have hlive : ((s.fetched (s.mem.read s.pc.toNat)).setPc 255).live := h
  exact ⟨_, _, hstep, h.1, rfl, (fetchReadsOrFaults _ hlive).2 (Nat.le_refl 255), rfl, rfl⟩

/-! ## CALL and RET -/

/-- With no room on the stack CALL raises StackOverflow before any write (R160). -/
theorem exec_call_overflow {s : State} (n : BitVec 2) (af : Bool) (i : Fin 8) (h7 : s.reg 7 = 0) :
    exec (.call n af (regWord i)) s = .next (s.faultedWith .stackOverflow 0) := by
  rcases push_cases (fun _ => BitVec.ofNat 8 (s.pcPlus 2)) s with ⟨-, e⟩ | ⟨hne, -⟩
  · rw [exec, execCall, regIdx_regWord, ok_bind, e]
    rfl
  · exact absurd h7 hne

/-- Settles O24: as for JMP, and the effect is `exec_call`, with the decremented `sp` and the return address named by
their values. -/
theorem callPushesReturnAddress : Obligations.CallPushesReturnAddress := by
  refine ⟨rfl, fun n af r => decodeEncode (.call n af r), fun n af => operandFetchFaults_irWord (.call n af 0),
    fun _ _ => oneRegisterFaults_of_exec fun _ _ => rfl, fun n af i _ => exec_call_overflow n af i, ?_⟩
  intro n af i s d ret hd _ hret
  have h7 : s.reg 7 ≠ 0 := by bv_omega
  have hsp : s.reg 7 - 1 = d := by bv_omega
  have hra : BitVec.ofNat 8 (s.pc.toNat + 2) = ret := by rw [← hret, BitVec.ofNat_toNat, BitVec.setWidth_eq]
  rw [exec_call n af i h7, hsp, hra, reg_setReg, toPc_eq_ofNat]
  rfl

/-- With a word on the stack RET goes to the word at `sp` and increments `sp` (R161). -/
theorem exec_ret {s : State} (n : BitVec 2) (af : Bool) (h7 : (s.reg 7).toNat < 255) :
    exec (.ret n af) s = .next ((s.setPc (s.cell (s.reg 7)).toPc).setReg 7 (s.reg 7 + 1)) := by
  rcases stackTop_cases s with ⟨-, e⟩ | ⟨h255, -⟩
  · exact Effect.exec_eq ⟨_, e, rfl⟩
  · exact absurd h7 (h255 ▸ by decide)

/-- With no word on the stack RET raises StackUnderflow before any write (R161). -/
theorem exec_ret_underflow {s : State} (n : BitVec 2) (af : Bool) (h7 : s.reg 7 = 255) :
    exec (.ret n af) s = .next (s.faultedWith .stackUnderflow 255) := by
  rcases stackTop_cases s with ⟨hlt, -⟩ | ⟨-, e⟩
  · exact absurd hlt (h7 ▸ by decide)
  · rw [exec, execRet, e]
    rfl

/-- Settles O25: RET reads no operand word and no register word, and its outcomes are `exec_ret_underflow` and
`exec_ret`. -/
theorem retPopsIntoPc : Obligations.RetPopsIntoPc := by
  refine ⟨rfl, fun n af => decodeEncode (.ret n af), fun n af _ => exec_ret_underflow n af, fun n af s h7 => ?_⟩
  rw [exec_ret n af h7, toPc_eq_ofNat]
  rfl

/-- Settles O56: the cell at CALL's decremented `sp` holds `pc + 2`, so that RET goes there, and its increment undoes
the decrement. -/
theorem callThenRetReturns : Obligations.CallThenRetReturns := by
  intro s n m af bf i hwf h7 hp
  refine ⟨_, exec_call n af i h7, fun t' hsp hcell => ?_⟩
  rw [reg_setPc, reg_setCell, reg_setReg, if_pos rfl] at hsp hcell
  have htop : t'.cell (s.reg 7 - 1) = BitVec.ofNat 8 (s.pc.toNat + 2) := hcell.trans (Store.read_write_self hwf)
  refine ⟨_, exec_ret m bf (hsp ▸ sub_one_lt_of_ne_zero h7), ?_, ?_⟩
  · rw [setReg_pc, setPc_pc, hsp, htop, toPc_eq_ofNat, BitVec.toNat_ofNat, BitVec.toNat_ofNat]
    omega
  · rw [hsp, reg_setReg, if_pos rfl, BitVec.sub_add_cancel]

end Sys2Proof.Machine

/-! # The direct-action instructions (R180 to R185)

HLT has no operand and stops the run; LDI, PRN, POP and PUSH check one register word first and go on by the `n` of
their word. -/

namespace Sys2Proof.Machine

/-! ## HLT, LDI and PRN -/

/-- A halted block takes no step: it stays halted, at the HLT's address (R181). -/
theorem step_halted {s : State} (h : s.runState = .halted) (hrst : s.pins.rst = false) :
    ∃ t, step s = .next t ∧ t.runState = .halted ∧ t.pc = s.pc := by
  have hrun : s.runState ≠ .running := fun hr => nomatch h.symm.trans hr
  have hidle : ¬(s.runState = .idle ∧ s.pins.start = true) := fun hi => nomatch h.symm.trans hi.1
  obtain ⟨t, ht, -, -, -, -, -, -, hkept⟩ := noStepUnlessRunning s hrun hrst
  obtain ⟨-, hpc, hstate⟩ := hkept hidle
  exact ⟨t, ht, hstate.trans h, hpc⟩

/-- Of the three outcomes of an instruction for the run state only HLT's enters `Halted` (R34). -/
theorem hlt_of_exec_halted {i : Instr} {s t : State} (h : exec i s = .next t) (hs : s.runState ≠ .halted)
    (ht : t.runState = .halted) : ∃ n, i = .hlt n := by
  rcases runStateFrame i s t h with ⟨hkept, -⟩ | ⟨hi, -⟩ | ⟨hfaulted, -⟩
  · exact absurd (hkept.symm.trans ht) hs
  · exact hi
  · cases hfaulted.symm.trans ht

/-- Settles O29: HLT's word is that of its encoding, its effect is the run state alone, and `step_halted` and
`hlt_of_exec_halted` are the rest. -/
theorem hltHaltsInPlace : Obligations.HltHaltsInPlace :=
  ⟨rfl, fun n => decodeEncode (.hlt n), fun n _ => Effect.exec_eq (i := .hlt n) rfl, fun _ => step_halted,
    fun _ _ _ => hlt_of_exec_halted⟩

/-- Settles O30: LDI's words are those of its encoding, its register is checked after both operand fetches, and its
effect is the immediate word. -/
theorem ldiLoadsImmediate : Obligations.LdiLoadsImmediate :=
  ⟨rfl, fun n r imm => decodeEncode (.ldi n r imm), fun n => operandFetchFaults_irWord (.ldi n 0 0),
    fun _ _ => oneRegisterFaults_of_exec fun _ _ => rfl,
    fun _ i _ _ => Effect.exec_eq ⟨i, regIdx_regWord i, rfl⟩⟩

/-- A word appended to the output stream is the step's output event (R41). -/
theorem outEvent_of_append {s t : State} {v : Word} (h : t.out = s.out ++ [v]) : outEvent s t = some v := by
  rw [outEvent, h, List.getElem?_concat_length]

/-- Settles O31: as for LDI, and the effect is the emitted word, which is the output event. -/
theorem prnEmitsRegister : Obligations.PrnEmitsRegister :=
  ⟨rfl, fun n r => decodeEncode (.prn n r), fun n => operandFetchFaults_irWord (.prn n 0),
    fun _ => oneRegisterFaults_of_exec fun _ _ => rfl,
    fun _ i _ => ⟨_, Effect.exec_eq ⟨i, regIdx_regWord i, rfl⟩, rfl, outEvent_of_append rfl⟩⟩

/-! ## POP -/

theorem stackTop_of_lt {s : State} (h7 : (s.reg 7).toNat < 255) : stackTop s = .ok (s.cell (s.reg 7)) := if_pos h7

/-- With a word on the stack POP loads it and then increments `sp`, which for R7 is the word just loaded (R184). -/
theorem exec_pop {s : State} (n : BitVec 2) (i : Fin 8) (h7 : (s.reg 7).toNat < 255) :
    exec (.pop n (regWord i)) s = .next ((s.setReg i (s.cell (s.reg 7))).incSp.advance n) :=
  Effect.exec_eq ⟨i, _, regIdx_regWord i, stackTop_of_lt h7, rfl⟩

/-- With no word on the stack POP raises StackUnderflow before any write (R184). -/
theorem exec_pop_underflow {s : State} (n : BitVec 2) (i : Fin 8) (h7 : s.reg 7 = 255) :
    exec (.pop n (regWord i)) s = .next (s.faultedWith .stackUnderflow 255) := by
  rcases stackTop_cases s with ⟨hlt, -⟩ | ⟨-, e⟩
  · exact absurd hlt (h7 ▸ by decide)
  · rw [exec, execPop, regIdx_regWord, ok_bind, e]
    rfl

/-- Settles O32: as for LDI, and the outcomes at the stack are `exec_pop_underflow` and `exec_pop`, with the
incremented word named by its value. -/
theorem popLoadsThenIncrements : Obligations.PopLoadsThenIncrements := by
  refine ⟨rfl, fun n r => decodeEncode (.pop n r), fun n => operandFetchFaults_irWord (.pop n 0),
    fun _ => oneRegisterFaults_of_exec fun _ _ => rfl, fun n i _ => exec_pop_underflow n i, ?_⟩
  rintro n i s v h7 rfl
  rw [exec_pop n i h7, incSp_eq, reg_setReg]
  simp only [eq_comm (a := (7 : Fin 8))]
  rfl

/-! ## PUSH -/

/-- With no room on the stack PUSH raises StackOverflow before any write (R185). -/
theorem exec_push_overflow {s : State} (n : BitVec 2) (i : Fin 8) (h7 : s.reg 7 = 0) :
    exec (.push n (regWord i)) s = .next (s.faultedWith .stackOverflow 0) := by
  rcases push_cases (fun t => t.reg i) s with ⟨-, e⟩ | ⟨hne, -⟩
  · rw [exec, execPush, regIdx_regWord, ok_bind, e]
    rfl
  · exact absurd h7 hne

/-- Settles O33: as for LDI, and the outcomes at the stack are `exec_push_overflow` and `exec_push`, with the
decremented `sp` named by its value. -/
theorem pushDecrementsThenStores : Obligations.PushDecrementsThenStores := by
  refine ⟨rfl, fun n r => decodeEncode (.push n r), fun n => operandFetchFaults_irWord (.push n 0),
    fun _ => oneRegisterFaults_of_exec fun _ _ => rfl, fun n i _ => exec_push_overflow n i, ?_⟩
  intro n i s d hd
  have h7 : s.reg 7 ≠ 0 := by bv_omega
  have hsp : s.reg 7 - 1 = d := by bv_omega
  rw [exec_push n i h7, hsp, reg_setReg]
  rfl

/-! ## PUSH and then POP -/

theorem setReg_reg_self (s : State) (i : Fin 8) : s.setReg i (s.reg i) = s :=
  congrArg (fun x => { s with x }) (Vector.set_getElem_self i.isLt)

theorem setReg_setReg_same (s : State) (i : Fin 8) (v w : Word) : (s.setReg i v).setReg i w = s.setReg i w :=
  congrArg (fun x => { s with x }) (Vector.set_set ..)

/-- POP of a register that equals the top of the stack only moves `sp` and goes on. -/
theorem exec_pop_of_top_eq {s : State} (n : BitVec 2) (i : Fin 8) (h7 : (s.reg 7).toNat < 255)
    (htop : s.cell (s.reg 7) = s.reg i) : exec (.pop n (regWord i)) s = .next (s.incSp.advance n) := by
  rw [exec_pop n i h7, htop, setReg_reg_self]

/-- With room on the stack PUSH leaves its register, the decremented `sp` for R7, at the top of the stack (R185). -/
theorem exec_push_top {s : State} (n : BitVec 2) (i : Fin 8) (hwf : Stack.wf s.stack = true) (h7 : s.reg 7 ≠ 0) :
    ∃ t, exec (.push n (regWord i)) s = .next t ∧ t.x = (s.setReg 7 (s.reg 7 - 1)).x ∧
      t.reg 7 = s.reg 7 - 1 ∧ t.cell (s.reg 7 - 1) = t.reg i :=
  ⟨_, exec_push n i h7, rfl, (reg_setReg s 7 7 _).trans (if_pos rfl), Store.read_write_self hwf⟩

/-- Settles O55: PUSH leaves `x[i]` at the top of the stack, so that POP's load changes nothing, R7 included, and its
increment undoes the decrement. -/
theorem pushThenPopRestores : Obligations.PushThenPopRestores := by
  intro s n m i hwf h7
  obtain ⟨t, hpush, hx, hsp, htop⟩ := exec_push_top n i hwf h7
  have hpop := exec_pop_of_top_eq m i (hsp ▸ sub_one_lt_of_ne_zero h7) (hsp ▸ htop)
  refine ⟨t, _, hpush, hpop, ?_⟩
  calc (t.incSp.advance m).x = t.x.set 7 (t.reg 7 + 1) := rfl
    _ = ((s.setReg 7 (s.reg 7 - 1)).setReg 7 (s.reg 7)).x := by rw [hx, hsp, BitVec.sub_add_cancel]; rfl
    _ = s.x := by rw [setReg_setReg_same, setReg_reg_self]

end Sys2Proof.Machine

/-! # Faults (R201, R202, R209 to R211)

R211's list splits where the decoder hands over to the instruction: the fetches and the unknown codes are checked before
it (lines 1 to 4), its register words and the stack by the instruction itself (lines 5 and 6, `instrFault`). -/

namespace Sys2Proof.Machine

/-! ## Fault entry and the codes (R201, R209) -/

/-- Settles O16: the ports read the record that fault entry writes. -/
theorem faultEntry : Obligations.FaultEntry :=
  fun _ _ _ => ⟨rfl, rfl, rfl, rfl, rfl, fun _ => rfl, rfl⟩

theorem code_ne_zero_and_ne_seven (c : Cause) : c.code ≠ 0 ∧ c.code ≠ 7 := by
  cases c <;> decide

/-- Settles O18: the port shows 0 for the empty record and the code of a cause, none of which is 0 or 7, for any
other. -/
theorem faultCodes : Obligations.FaultCodes := by
  refine ⟨rfl, rfl, rfl, rfl, rfl, rfl, fun s => ?_⟩
  cases hf : s.fault with
  | none => simp [State.faultCausePort, hf]
  | some r => simpa [State.faultCausePort, hf] using code_ne_zero_and_ne_seven r.cause

/-! ## Memory faults (R202) -/

/-- Settles O11: MemRead is `memRead_of_lt` and `memRead_of_ge`, the fetch of `ir` is O10's, and the first operand
address outside memory is 255. -/
theorem memoryFaultsAtFetches : Obligations.MemoryFaultsAtFetches := by
  refine ⟨fun s a => ⟨memRead_of_lt, fun ha => ?_⟩, fun s h hp => ?_, fun s k h hp _ hk h255 => ?_⟩
  · rw [memRead_of_ge ha, BitVec.ofNat_toNat, BitVec.setWidth_eq]
  · exact ⟨_, (fetchReadsOrFaults s h).2 hp, rfl, rfl⟩
  · exact ⟨_, step_live_missing h hp (by omega), rfl, by rw [h255]; rfl⟩

/-! ## Faults are precise (R210) -/

/-- After an instruction that has its effect the run goes on or halts, with the record kept (R34, R36). -/
theorem Effect.unfaulted {i : Instr} {s t : State} (h : Effect s t i) (hs : s.runState = .running) :
    (t.runState = .running ∨ t.runState = .halted) ∧ t.fault = s.fault := by
  refine ⟨?_, h.writes.sameOutside.fault⟩
  rcases h.writes.runState with hr | ⟨-, rfl⟩
  · exact .inl (hr.trans hs)
  · exact .inr rfl

/-- Settles O17: fault entry writes none of these fields, and a diagnostic or an effect does not fault. -/
theorem faultsArePrecise : Obligations.FaultsArePrecise := by
  intro s t h ht hf
  cases step_live_cases h ht with
  | noWord | faulted => exact ⟨fun _ => rfl, rfl, rfl, fun _ => rfl, fun _ => rfl, rfl, rfl⟩
  | diagnosed => cases h.1.symm.trans hf
  | ran op t hc hk he =>
    rcases (he.unfaulted h.1).1 with hr | hr <;> cases hr.symm.trans hf

/-! ## The first fault of an instruction (R211, lines 5 and 6) -/

/-- The fault an instruction raises in `s`, or none: its register words in order, then the stack. -/
def instrFault (s : State) : Instr → Option Raise
  | .add _ a b | .mul _ a b | .cmp _ a b =>
    if 8 ≤ a.toNat then some ⟨.registerFault, a.setWidth 9⟩
    else if 8 ≤ b.toNat then some ⟨.registerFault, b.setWidth 9⟩
    else none
  | .jmp _ _ r | .jeq _ _ r | .jne _ _ r | .ldi _ r _ | .prn _ r =>
    if 8 ≤ r.toNat then some ⟨.registerFault, r.setWidth 9⟩ else none
  | .call _ _ r | .push _ r =>
    if 8 ≤ r.toNat then some ⟨.registerFault, r.setWidth 9⟩
    else if s.reg 7 = 0 then some ⟨.stackOverflow, 0⟩
    else none
  | .pop _ r =>
    if 8 ≤ r.toNat then some ⟨.registerFault, r.setWidth 9⟩
    else if s.reg 7 = 255 then some ⟨.stackUnderflow, 255⟩
    else none
  | .ret _ _ => if s.reg 7 = 255 then some ⟨.stackUnderflow, 255⟩ else none
  | .hlt _ => none

/-- A computation that raises the fault in `o`, or, where there is none, answers a value of `P`. -/
def Raises {α : Type} (o : Option Raise) (P : α → Prop) : Except Raise α → Prop :=
  Answers (fun r => o = some r) fun v => o = none ∧ P v

theorem Raises.regIdx_bind {α : Type} {o : Option Raise} {P : α → Prop} {w : Word} {f : Fin 8 → Except Raise α}
    (h : ∀ i, regIdx w = .ok i → Raises o P (f i)) :
    Raises (if 8 ≤ w.toNat then some ⟨.registerFault, w.setWidth 9⟩ else o) P (regIdx w >>= f) := by
  rcases regIdx_cases w with ⟨hw, e⟩ | ⟨hw, e⟩
  · rw [if_neg (Nat.not_le.mpr hw), e]
    exact h _ e
  · rw [if_pos hw, e]
    exact rfl

theorem Raises.push_bind {α : Type} {o : Option Raise} {P : α → Prop} {g : State → Word} {s : State}
    {f : State → Except Raise α} (h : ∀ u, push g s = .ok u → Raises o P (f u)) :
    Raises (if s.reg 7 = 0 then some ⟨.stackOverflow, 0⟩ else o) P (push g s >>= f) := by
  rcases push_cases g s with ⟨h7, e⟩ | ⟨h7, e⟩
  · rw [if_pos h7, e]
    exact rfl
  · rw [if_neg h7, e]
    exact h _ e

theorem Raises.stackTop_bind {α : Type} {o : Option Raise} {P : α → Prop} {s : State} {f : Word → Except Raise α}
    (h : ∀ v, stackTop s = .ok v → Raises o P (f v)) :
    Raises (if s.reg 7 = 255 then some ⟨.stackUnderflow, 255⟩ else o) P (stackTop s >>= f) := by
  rcases stackTop_cases s with ⟨h7, e⟩ | ⟨h7, e⟩
  · rw [if_neg fun h255 => absurd (h255 ▸ h7) (by decide), e]
    exact h _ e
  · rw [if_pos h7, e]
    exact rfl

/-- An instruction raises its first fault, or has its effect where there is none. -/
theorem exec_raises (i : Instr) (s : State) :
    ∃ e, exec i s = settle s e ∧ Raises (instrFault s i) (fun t => Effect s t i) e := by
  cases i with
  | add n a b | mul n a b | cmp n a b =>
    exact ⟨_, rfl, .regIdx_bind fun i hi => .regIdx_bind fun j hj => ⟨rfl, i, j, hi, hj, rfl⟩⟩
  | call n af r | push n r =>
    exact ⟨_, rfl, .regIdx_bind fun i hi => .push_bind fun u hu => ⟨rfl, i, u, hi, hu, rfl⟩⟩
  | pop n r => exact ⟨_, rfl, .regIdx_bind fun i hi => .stackTop_bind fun v hv => ⟨rfl, i, v, hi, hv, rfl⟩⟩
  | ret n af => exact ⟨_, rfl, .stackTop_bind fun v hv => ⟨rfl, v, hv, rfl⟩⟩
  | jmp n af r | jeq n af r | jne n af r | ldi n r imm | prn n r =>
    exact ⟨_, rfl, .regIdx_bind fun i hi => ⟨rfl, i, hi, rfl⟩⟩
  | hlt n => exact ⟨.ok s.halt, rfl, rfl, rfl⟩

/-! ## The first fault of the words at `pc` (R211, lines 1 to 4) -/

theorem firstFault_of_ge {s : State} (hp : 255 ≤ s.pc.toNat) : s.firstFault = some ⟨.memoryFault, s.pc⟩ :=
  if_pos hp

/-- The operand word that is missing first is the one at 255. -/
theorem firstFault_missing {s : State} (hp : s.pc.toNat < 255)
    (hk : 255 ≤ s.pc.toNat + (classify (s.mem.read s.pc.toNat)).operandsRead) :
    s.firstFault = some ⟨.memoryFault, 255⟩ := by
  have htwo := operandsRead_le_two (classify (s.mem.read s.pc.toNat))
  have hc : classify (s.mem.read s.pc.toNat) ≠ .unknownControl := fun hc => by
    rw [hc] at hk
    exact absurd hk (Nat.not_le.mpr hp)
  rw [State.firstFault, if_neg (Nat.not_le.mpr hp), if_neg hc]
  by_cases h1 : 255 ≤ s.pc.toNat + 1
  · rw [if_pos ⟨by omega, h1⟩, show s.pc.toNat + 1 = 255 by omega]
    rfl
  · rw [if_neg fun h => h1 h.2, if_pos ⟨by omega, by omega⟩, show s.pc.toNat + 2 = 255 by omega]
    rfl

theorem firstFault_unknownControl {s : State} (hp : s.pc.toNat < 255)
    (hc : classify (s.mem.read s.pc.toNat) = .unknownControl) :
    s.firstFault = some ⟨.unsupportedControlOp, (codeField (s.mem.read s.pc.toNat)).setWidth 9⟩ :=
  (if_neg (Nat.not_le.mpr hp)).trans (if_pos hc)

/-- The checks after the operand fetches, of a word whose operand words are in memory. -/
theorem firstFault_unknownAlu {s : State} (hk : s.pc.toNat + 2 < 255)
    (hc : classify (s.mem.read s.pc.toNat) = .unknownAlu) :
    s.firstFault = some ⟨.unsupportedOperation, (codeField (s.mem.read s.pc.toNat)).setWidth 9⟩ := by
  have h0 : ¬255 ≤ s.pc.toNat := by omega
  have h1 : ¬255 ≤ s.pc.toNat + 1 := by omega
  simp [State.firstFault, hc, h0, h1, Nat.not_le.mpr hk]

/-- An unknown direct-action word takes the soft path and raises nothing (R117). -/
theorem firstFault_unknownDirect {s : State} (hp : s.pc.toNat < 255)
    (hc : classify (s.mem.read s.pc.toNat) = .unknownDirect) : s.firstFault = none := by
  simp [State.firstFault, hc, Nat.not_le.mpr hp, WordClass.operandsRead]

/-- Where memory holds the operand words of a known word, the checks left are its instruction's. -/
theorem firstFault_known {s : State} {op : Op} (hc : classify (s.mem.read s.pc.toNat) = .known op)
    (hk : s.pc.toNat + op.operandsRead < 255) :
    s.firstFault = instrFault s
      (op.build (s.mem.read s.pc.toNat) (s.mem.read (s.pc.toNat + 1)) (s.mem.read (s.pc.toNat + 2))) := by
  have h0 : ¬255 ≤ s.pc.toNat := by omega
  have h1 : ¬(1 ≤ op.operandsRead ∧ 255 ≤ s.pc.toNat + 1) := by omega
  have h2 : ¬(2 ≤ op.operandsRead ∧ 255 ≤ s.pc.toNat + 2) := by omega
  simp only [State.firstFault, hc, WordClass.operandsRead, if_neg h0, if_neg h1, if_neg h2]
  cases op <;> simp [Op.operandsRead, Op.build, instrFault]

/-! ## The first fault of a step -/

/-- The state after a step that raises `r`: fault entry with the word at `pc`, or without one where there is none. -/
def State.afterFault (s : State) (r : Raise) : State :=
  if s.pc.toNat < 255 then (s.fetched (s.mem.read s.pc.toNat)).enterFault r (some (s.mem.read s.pc.toNat))
  else (s.fetched s.ir).enterFault r none

/-- A step that leaves `t` raises the fault in `o`, or, where there is none, goes on or halts with the record kept. -/
def StepRaises (s t : State) (o : Option Raise) : Prop :=
  (∃ r, o = some r ∧ t = s.afterFault r) ∨
    o = none ∧ (t.runState = .running ∨ t.runState = .halted) ∧ t.fault = s.fault

theorem stepRaises_enterFault {s : State} {r : Raise} {o : Option Raise} (hp : s.pc.toNat < 255) (ho : o = some r) :
    StepRaises s ((s.fetched (s.mem.read s.pc.toNat)).enterFault r (some (s.mem.read s.pc.toNat))) o :=
  .inl ⟨r, ho, (if_pos hp).symm⟩

/-- A known word's step raises its instruction's first fault. -/
theorem stepRaises_known {s t : State} {op : Op} (h : s.live) (hc : classify (s.mem.read s.pc.toNat) = .known op)
    (hk : s.pc.toNat + op.operandsRead < 255) (ht : step s = .next t) : StepRaises s t s.firstFault := by
  have hp : s.pc.toNat < 255 := Nat.lt_of_le_of_lt (Nat.le_add_right ..) hk
  rw [step_live_known h hc hk] at ht
  obtain ⟨e, hexec, he⟩ := exec_raises _ (s.fetched (s.mem.read s.pc.toNat))
  rcases settle_answers he (hexec ▸ ht) with ⟨r, hr, rfl⟩ | ⟨hnone, heff⟩
  · exact stepRaises_enterFault hp ((firstFault_known hc hk).trans hr)
  · exact .inr ⟨(firstFault_known hc hk).trans hnone, heff.unfaulted h.1⟩

/-- A step of a running block raises the first fault of R211's list, whatever the word at `pc` is. -/
theorem step_raises_firstFault {s t : State} (h : s.live) (ht : step s = .next t) :
    StepRaises s t s.firstFault := by
  rcases (Nat.lt_or_ge s.pc.toNat 255).symm with hp | hp
  · cases ht.symm.trans ((fetchReadsOrFaults s h).2 hp)
    exact .inl ⟨_, firstFault_of_ge hp, (if_neg (Nat.not_lt.mpr hp)).symm⟩
  rcases (Nat.lt_or_ge (s.pc.toNat + (classify (s.mem.read s.pc.toNat)).operandsRead) 255).symm with hk | hk
  · cases ht.symm.trans (step_live_missing h hp hk)
    exact stepRaises_enterFault hp (firstFault_missing hp hk)
  cases hc : classify (s.mem.read s.pc.toNat) with
  | known op =>
    rw [hc] at hk
    exact stepRaises_known h hc hk ht
  | unknownControl =>
    cases ht.symm.trans (step_live_rejected h hp (decode_window_unknownControl hc hp))
    exact stepRaises_enterFault hp (firstFault_unknownControl hp hc)
  | unknownAlu =>
    rw [hc] at hk
    cases ht.symm.trans (step_live_rejected h hp (decode_window_unknownAlu hc hk))
    exact stepRaises_enterFault hp (firstFault_unknownAlu hk hc)
  | unknownDirect =>
    cases ht.symm.trans (unknownDirectWordIsDiagnosed s h hp hc)
    exact .inr ⟨firstFault_unknownDirect hp hc, .inl h.1, rfl⟩

/-- Settles O15: both directions are read off `step_raises_firstFault`. -/
theorem firstFaultIsRaised : Obligations.FirstFaultIsRaised := by
  intro s h
  obtain ⟨t, ht⟩ := step_answers_next s
  rcases step_raises_firstFault h ht with ⟨r, hr, rfl⟩ | ⟨hnone, hrun⟩
  · exact ⟨fun hn => (nomatch hr.symm.trans hn), fun r' hr' => by cases hr.symm.trans hr'; exact ht⟩
  · exact ⟨fun _ => ⟨t, ht, hrun⟩, fun r hr => (nomatch hnone.symm.trans hr)⟩

end Sys2Proof.Machine

/-! # Reset, start and the terminal run states (R214, R240 to R243)

`start` acts in `Idle` alone: a running block reads no port but `rst` and `load_we`, since the fault of its step, its
diagnostic and the effect of its instruction depend on no port, and a halted or faulted block refuses a host write and
does nothing else. -/

namespace Sys2Proof.Machine

/-! ## Reset -/

/-- Settles O42: the step is the reset, whose values are O44's. -/
theorem rstEntersResetState : Obligations.RstEntersResetState := by
  intro s hrst
  obtain ⟨⟨hidle, hmem⟩, hvalues, -⟩ := resetAndStartValues s.init s.pins []
  obtain ⟨hgpr, hsp, hpc, hfl, hfault, hout, hdiag, hstack⟩ := hvalues _ (.inl rfl)
  exact ⟨s.enterReset, step_rst hrst, hidle, hmem, hgpr, hsp, hpc, hfl, fun k => congrArg (Store.read · k) hstack,
    hfault, hout, hdiag⟩

/-! ## Start -/

/-- The step of a `start` in `Idle` is the load port's and then the start (R242, log 4). -/
theorem step_start {s : State} (hidle : s.runState = .idle) (hrst : s.pins.rst = false)
    (hstart : s.pins.start = true) : step s = .next s.serveLoad.startRun := by
  have hrun : s.runState ≠ .running := fun h => nomatch hidle.symm.trans h
  rcases waitStep_cases s with ⟨hn, -⟩ | ⟨-, -, e⟩
  · exact absurd ⟨hidle, hstart⟩ hn
  · rw [step_waiting hrst hrun, e]

/-- Without a host write the start alone is seen. -/
theorem step_start_quiet {s : State} (hidle : s.runState = .idle) (hrst : s.pins.rst = false)
    (hstart : s.pins.start = true) (hwe : s.pins.loadWe = false) : step s = .next s.startRun := by
  rw [step_start hidle hrst hstart, serveLoad_quiet hwe]

/-! ## The terminal run states -/

/-- A block that is neither idle nor running only refuses a host write (R243, R249). -/
theorem step_terminal {s : State} (hidle : s.runState ≠ .idle) (hrun : s.runState ≠ .running)
    (hrst : s.pins.rst = false) : step s = .next { s with loadErr := s.loadErr || s.pins.loadWe } := by
  rcases waitStep_cases s with ⟨-, e⟩ | ⟨hi, -, -⟩
  · rw [step_waiting hrst hrun, e, serveLoad_not_idle hidle]
  · exact absurd hi hidle

/-- Settles O49: `step_terminal` without `rst`; with it the reset state is in `Idle`, where every write of the loader
lands and a start leaves memory as loaded. -/
theorem terminalUntilReset : Obligations.TerminalUntilReset := by
  intro s hs
  obtain ⟨hidle, hrun⟩ : s.runState ≠ .idle ∧ s.runState ≠ .running := by
    rcases hs with h | h <;> rw [h] <;> exact ⟨nofun, nofun⟩
  refine ⟨step_terminal hidle hrun, fun hrst => ⟨s.enterReset, step_rst hrst, rfl, fun ws hlen => ?_⟩⟩
  have hplace : Config.loadBase + ws.length ≤ 255 := by rwa [Nat.zero_add]
  obtain ⟨hloaded, -⟩ := loadFrom_idle (s := s.enterReset) rfl hplace
  exact ⟨_, _, if_pos hlen, step_start_quiet hloaded rfl rfl rfl, rfl, rfl, rfl⟩

/-! ## The ports a running block reads -/

/-- The state with other values on the input ports. -/
def State.withPins (q : Pins) (s : State) : State := { s with pins := q }

theorem push_withPins {f : State → Word} {s u : State} (q : Pins) (hf : ∀ t : State, f (t.withPins q) = f t)
    (h : push f s = .ok u) : push f (s.withPins q) = .ok (u.withPins q) := by
  rcases push_cases f s with ⟨-, e⟩ | ⟨h7, e⟩ <;> cases e.symm.trans h
  rcases push_cases f (s.withPins q) with ⟨h0, -⟩ | ⟨-, e'⟩
  · exact absurd h0 h7
  · rw [e', ← hf (s.setReg 7 (s.reg 7 - 1))]
    rfl

/-- The effect of an instruction depends on no input port. -/
theorem Effect.withPins {i : Instr} {s t : State} (q : Pins) (h : Effect s t i) :
    Effect (s.withPins q) (t.withPins q) i := by
  cases i with
  | add | mul | cmp | pop =>
    obtain ⟨i, j, hi, hj, rfl⟩ := h
    exact ⟨i, j, hi, hj, rfl⟩
  | call | push =>
    obtain ⟨i, u, hi, hu, rfl⟩ := h
    exact ⟨i, u.withPins q, hi, push_withPins q (fun _ => rfl) hu, rfl⟩
  | ret | jmp | ldi | prn =>
    obtain ⟨i, hi, rfl⟩ := h
    exact ⟨i, hi, rfl⟩
  | jeq | jne =>
    obtain ⟨i, hi, rfl⟩ := h
    exact ⟨i, hi, apply_ite (State.withPins q) ..⟩
  | hlt =>
    obtain rfl := h
    rfl

theorem fetched_withPins {s : State} {q : Pins} (hwe : q.loadWe = s.pins.loadWe) (w : Word) :
    (s.withPins q).fetched w = (s.fetched w).withPins q := by
  simp only [State.fetched, State.withPins, hwe]

theorem afterFault_withPins {s : State} {q : Pins} (hwe : q.loadWe = s.pins.loadWe) (r : Raise) :
    (s.withPins q).afterFault r = (s.afterFault r).withPins q := by
  rw [State.afterFault, State.afterFault, apply_ite (State.withPins q), fetched_withPins hwe, fetched_withPins hwe]
  rfl

/-- A running block reads no port but `rst` and `load_we`: the first fault is found in memory and the registers, and
what is done without one is a diagnostic or an effect. -/
theorem step_live_withPins {s t : State} {q : Pins} (h : s.live) (hrst : q.rst = false)
    (hwe : q.loadWe = s.pins.loadWe) (ht : step s = .next t) :
    step (s.withPins q) = .next (t.withPins q) := by
  have h' : (s.withPins q).live := ⟨h.1, hrst⟩
  obtain ⟨t', ht'⟩ := step_answers_next (s.withPins q)
  rcases step_raises_firstFault h ht with ⟨r, hr, rfl⟩ | ⟨hnone, hrun, -⟩
  · rcases step_raises_firstFault h' ht' with ⟨r', hr', rfl⟩ | ⟨hnone, -⟩
    · cases hr.symm.trans hr'
      rw [ht', afterFault_withPins hwe]
    · cases hr.symm.trans hnone
  · cases step_live_cases h ht with
    | noWord | faulted => exact absurd hrun (by simp)
    | diagnosed hp hc =>
      rw [unknownDirectWordIsDiagnosed _ h' hp hc, fetched_withPins hwe]
      rfl
    | ran op _ hc hk he =>
      rw [step_live_known h' hc hk, fetched_withPins hwe]
      exact (he.withPins q).exec_eq

/-- Settles O45: `step_start` in `Idle`, where the load port keeps the registers and the ports, `step_live_withPins` in
`Running`, and `step_terminal` in the two terminal run states. -/
theorem startEntersRunning : Obligations.StartEntersRunning := by
  refine ⟨fun s hidle hrst hstart => ⟨⟨_, step_start hidle hrst hstart, rfl, ?_, ⟨rfl, ?_⟩, rfl⟩,
    step_start_quiet hidle hrst hstart⟩, fun s t b hidle hrst ht => ?_⟩
  · rw [serveLoad_eq]
    rfl
  · exact (congrArg Pins.rst (serveLoad_sameEnv s).2).trans hrst
  · by_cases hrun : s.runState = .running
    · rw [(step_sameEnv ht).2]
      exact step_live_withPins ⟨hrun, hrst⟩ hrst rfl ht
    · cases ht.symm.trans (step_terminal hidle hrun hrst)
      exact step_terminal (s := { s with pins := { s.pins with start := b } }) hidle hrun hrst

end Sys2Proof.Machine
